-- ==== Sys2Proof/Word.lean ====
section
/-! DEFINITION. The fixed-width values of the block and the values sampled at its input ports. A value whose width is a
parameter of the build (CNT, DLY, DAC_CFG) is a natural number with the bound stated as an invariant; spec/00_scope.md R15. -/

namespace Sys2Proof

/-- A ROM word, and the value of port `dac_data`: `ROM_W = 16` bits (00_scope.md R7). -/
abbrev Word := BitVec 16

/-- A ROM address: `ADDR_W = 5` bits (00_scope.md R6). -/
abbrev Addr := BitVec 5

/-- The control vector, 7 bits (30_encoding.md R61, R69). -/
abbrev ControlVector := BitVec 7

/-- The values sampled at the input ports at one rising edge of `clk` (10_state.md R30, R32). `clk` itself is the step. -/
structure Inputs where
  /-- port `rst`, synchronous reset, active high -/
  rst : Bool
  /-- port `dac_init_ack` -/
  dacInitAck : Bool
  /-- port `dac_ack` -/
  dacAck : Bool
  /-- port `tick` -/
  tick : Bool
deriving DecidableEq, Repr, Inhabited

end Sys2Proof
end

