-- ==== Sys2Proof/Config.lean ====
section
/-! DEFINITION. The build parameters of spec/00_scope.md R6 to R12, their legality, and the two values the spec leaves
open to the model as a whole: which legal configuration the device has, and what its surroundings drive. -/

namespace Sys2Proof

/-- The OPEN parameters as they are given to the model, legal or not (00_scope.md R8 to R12). -/
structure Params where
  /-- `DATA_W` (R8) -/
  dataW : Nat
  /-- `FLAG_VAL` (R8) -/
  flagVal : Nat
  /-- `WAVE`, `TABLE_LEN = 32` words (R6, R9) -/
  wave : Vector Word 32
  /-- `CNT_W` (R10) -/
  cntW : Nat
  /-- `DLY_W` (R11) -/
  dlyW : Nat
  /-- `DELAY_TICKS` (R11) -/
  delayTicks : Nat
  /-- `CFG_W` (R12) -/
  cfgW : Nat
  /-- `DAC_CFG` (R12) -/
  dacCfg : Nat
deriving DecidableEq, Repr

/-- `FLAG_W = ROM_W - DATA_W` (00_scope.md R8). -/
def Params.flagW (p : Params) : Nat := 16 - p.dataW

/-- The flag field `word[FLAG_W-1:0]` (00_scope.md R8, 30_encoding.md R63); 0, the empty field, when `FLAG_W = 0`. -/
def Params.flagField (p : Params) (w : Word) : Nat := w.toNat % 2 ^ p.flagW

/-- The data field `word[15:FLAG_W]`, an unsigned code (00_scope.md R8, 40_waveform_rom.md R76). -/
def Params.dataField (p : Params) (w : Word) : Nat := w.toNat / 2 ^ p.flagW

/-- The rule of 00_scope.md that a set of parameters breaks. -/
inductive Violation where
  /-- not `12 <= DATA_W <= 16` (R8) -/
  | dataWidth
  /-- `FLAG_VAL` does not fit in `FLAG_W` bits (R8) -/
  | flagValue
  /-- some entry of `WAVE` has a flag field other than `FLAG_VAL` (R9) -/
  | waveFlags
  /-- `CNT_W < 5` (R10) -/
  | counterWidth
  /-- `DLY_W < 1` (R11) -/
  | delayWidth
  /-- `DELAY_TICKS > 2^DLY_W - 1` (R11) -/
  | delayTicks
  /-- `CFG_W < 1` (R12) -/
  | configWidth
  /-- `DAC_CFG` does not fit in `CFG_W` bits (R12) -/
  | configValue
deriving DecidableEq, Repr

/-- The first constraint of 00_scope.md R8 to R12 that the parameters break, in the order of the rules; `none` for a
legal set. DESIGN CHOICE: which one is named when several are broken (log entry 17). -/
def Params.violation (p : Params) : Option Violation :=
  if ¬ (12 ≤ p.dataW ∧ p.dataW ≤ 16) then some .dataWidth
  else if ¬ p.flagVal < 2 ^ p.flagW then some .flagValue
  else if ¬ p.wave.toList.all (fun w => p.flagField w == p.flagVal) then some .waveFlags
  else if ¬ 5 ≤ p.cntW then some .counterWidth
  else if ¬ 1 ≤ p.dlyW then some .delayWidth
  else if ¬ p.delayTicks < 2 ^ p.dlyW then some .delayTicks
  else if ¬ 1 ≤ p.cfgW then some .configWidth
  else if ¬ p.dacCfg < 2 ^ p.cfgW then some .configValue
  else none

/-- A configuration of this block: parameters that break no rule (00_scope.md R13: any other set is not a
configuration of this block). -/
structure Config where
  params : Params
  legal : params.violation = none
deriving DecidableEq, Repr

/-- A legal configuration, to show that one exists: the narrowest widths, no delay, a flat table. Nothing reads it. -/
def Config.narrowest : Config where
  params := { dataW := 16, flagVal := 0, wave := Vector.replicate 32 0, cntW := 5, dlyW := 1, delayTicks := 0, cfgW := 1,
              dacCfg := 0 }
  legal := by decide

/-- The configuration the device at hand was built with. Every parameter is OPEN (00_scope.md R8 to R12), so nothing is
known of it but that it is legal; the argument only shows that a legal one exists. DESIGN CHOICE (log entry 2), safe. -/
opaque Config.deviceOf (someLegal : Inhabited Config) : Config

/-- The unknown legal configuration of the device at hand. -/
def Config.device : Config := Config.deviceOf ⟨Config.narrowest⟩

/-- The inputs sampled at edge `k` where no stimulus is placed for that edge: a free input in every cycle
(70_reset_and_hazards.md R125, R126). DESIGN CHOICE (log entry 3), safe. -/
opaque Config.freeInputs (k : Nat) : Inputs

end Sys2Proof
end

