-- ==== Sys2Proof/Machine/State.lean ====
section
/-! DEFINITION. The state of the block (spec/10_state.md R18 to R36) and, beside it, what stands at its ports: the
configuration it was built with, the inputs still to come, the handshakes completed. -/

namespace Sys2Proof.Machine

open Sys2Proof

/-- The value of register `PHASE` (10_state.md R23), with the illegal value kept (30_encoding.md R68). -/
inductive Phase where
  /-- `0b00`: the DAC initialization handshake is in progress -/
  | init
  /-- `0b01`: the sample output handshake is in progress -/
  | emit
  /-- `0b10`: the pacing delay is in progress -/
  | wait
  /-- `0b11`: no legal run reaches it (41_sequencer.md R87) -/
  | illegal
deriving DecidableEq, Repr

/-- The block's three registers, and no others (10_state.md R18). -/
structure Regs where
  /-- `PHASE` -/
  phase : Phase
  /-- `CNT`, the sample counter, below `2^CNT_W` (10_state.md R19); log entry 6 -/
  cnt : Nat
  /-- `DLY`, the ticks still to wait, below `2^DLY_W` (10_state.md R22); log entry 6 -/
  dly : Nat
deriving DecidableEq, Repr

/-- The reset values (10_state.md R34). -/
def Regs.reset : Regs := { phase := .init, cnt := 0, dly := 0 }

/-- The block's state. Before the first reset edge no register has a value that a model may pick (10_state.md R35,
60_exceptions.md R101; log entry 4). -/
inductive BlockState where
  /-- before the first reset edge of a run without a launch state -/
  | unspecified
  /-- after a reset edge, or launched from an explicitly given state -/
  | known (regs : Regs)
deriving DecidableEq, Repr

/-- A completed handshake (70_reset_and_hazards.md R125). -/
inductive Handshake where
  /-- an INIT_DONE edge -/
  | init
  /-- an EMIT_DONE edge, with the word handed over -/
  | sample (word : Word)
deriving DecidableEq, Repr

/-- The values of the output ports in one cycle (10_state.md R31). -/
structure Outputs where
  dacInitReq : Bool
  /-- the constant `DAC_CFG`, below `2^CFG_W` -/
  dacInitCfg : Nat
  dacReq : Bool
  dacData : Word
deriving DecidableEq, Repr

/-- The machine: the block, the configuration it was built with, and its surroundings as far as a run names them. -/
structure State where
  /-- the build parameters, which no transition changes (00_scope.md R13; log entry 2) -/
  cfg : Config
  /-- `PHASE`, `CNT` and `DLY` (10_state.md R18) -/
  block : BlockState
  /-- the word on port `dac_data` in this cycle, driven by ROMRD (40_waveform_rom.md R75); `none` before the first reset
  (10_state.md R35); log entry 10 -/
  dacData : Option Word
  /-- the model's: completed handshakes, newest first (70_reset_and_hazards.md R125; log entry 13) -/
  handed : List Handshake
  /-- the model's: the inputs placed for the coming edges, oldest first (70_reset_and_hazards.md R125; log entry 3) -/
  stimulus : List Inputs
  /-- the model's: the number of edges passed, the argument of the free inputs (log entry 3) -/
  edge : Nat
deriving DecidableEq, Repr

/-- Why the machine stops. The hardware raises no exception (60_exceptions.md R100). -/
inductive Fault where
  /-- An edge with `rst = 0`, or the reading of an output, while the block is `unspecified`: before the first reset edge of
  a run without a launch state. Raised by every transition but RESET, by the selection of a transition and by reading the
  outputs. Safe: the spec asks a model for it (60_exceptions.md R101). -/
  | stateUnspecified
deriving DecidableEq, Repr

/-- What the machine has no meaning for. -/
inductive Refusal where
  /-- An instruction without a meaning; raised by no arm of `exec` in this model. Safe. -/
  | notModelled (mnemonic : String)
  /-- A set of parameters that breaks a rule of 00_scope.md; raised when a block is built from it, never by a step. Safe:
  the spec asks a model for it (00_scope.md R13, 60_exceptions.md R101). -/
  | illegalConfiguration (broken : Violation)
deriving DecidableEq, Repr

/-- The machine right after a reset edge (10_state.md R34): the registers at their reset values, `dac_data = WAVE[0]`, of
an unknown legal configuration; no handshake completed, no input placed, edge count 0 (log entries 2 and 5). -/
def State.reset : State where
  cfg := Config.device
  block := .known Regs.reset
  dacData := some Config.device.params.wave[0]
  handed := []
  stimulus := []
  edge := 0

end Sys2Proof.Machine
end

