-- ==== Sys2Proof/Machine/Flags.lean ====
section
/-! DEFINITION. The one condition signal of the block; it has no status flags (spec/10_state.md R25). -/

namespace Sys2Proof.Machine

/-- `DLY_Z = (DLY == 0)` (10_state.md R25). -/
def dlyZ (r : Regs) : Bool := r.dly == 0

end Sys2Proof.Machine
end

