-- ==== Sys2Proof/Machine/Operands.lean ====
section
/-! DEFINITION. The derived values the transitions read (spec/30_encoding.md R61, R62). -/

namespace Sys2Proof.Machine

open Sys2Proof

/-- `IDX = CNT[4:0]`, the ROM address (10_state.md R21). -/
def idx (r : Regs) : Addr := BitVec.ofNat 5 r.cnt

/-- `zext_DLY_W(DELAY_TICKS)`, the value EMIT_DONE loads (30_encoding.md R62); it fits by 00_scope.md R11. -/
def delayReload (c : Config) : Nat := c.params.delayTicks

/-- The encoding of `PHASE` (10_state.md R23). -/
def phaseBits : Phase → BitVec 2
  | .init => 0b00
  | .emit => 0b01
  | .wait => 0b10
  | .illegal => 0b11

/-- The phase a 2-bit value encodes (10_state.md R23). -/
def phaseOfBits (b : BitVec 2) : Phase :=
  if b = 0b00 then .init
  else if b = 0b01 then .emit
  else if b = 0b10 then .wait
  else .illegal

/-- `CV = {rst, PHASE[1:0], dac_init_ack, dac_ack, tick, DLY_Z}` (30_encoding.md R61). -/
def controlVector (inp : Inputs) (r : Regs) : ControlVector :=
  BitVec.ofBool inp.rst ++ phaseBits r.phase ++ BitVec.ofBool inp.dacInitAck ++ BitVec.ofBool inp.dacAck
    ++ BitVec.ofBool inp.tick ++ BitVec.ofBool (dlyZ r)

end Sys2Proof.Machine
end

