-- ==== Sys2Proof/Machine/Ops.lean ====
section
/-! DEFINITION. The operations the meanings share: reading the ROM, reading and writing the registers, the two counters,
handing over, the outputs, and building a block. The block takes no exception and returns from none
(spec/60_exceptions.md R100, R104, R105), so no such operation stands here; loading the reset values is shared. -/

namespace Sys2Proof.Machine

open Sys2Proof

/-- `RomRead(a) = WAVE[a]` (20_memory.md R43). Every 5-bit address is in the table (R45). -/
def romRead (c : Config) (a : Addr) : Word := c.params.wave[a.toNat]'a.isLt

/-- Writing all three registers at one edge (00_scope.md R16). -/
def setRegs (s : State) (r : Regs) : State := { s with block := .known r }

/-- A transition that reads a register: a fault while no register has a value (60_exceptions.md R101). -/
def withRegs (s : State) (f : Regs → State) : Host.Outcome State Fault Refusal :=
  match s.block with
  | .unspecified => .fault .stateUnspecified
  | .known r => .next (f r)

/-- The assignments of RESET and of ILLEGAL_PHASE (41_sequencer.md R81, R87). -/
def loadResetValues (s : State) : State := setRegs s Regs.reset

/-- `(CNT + 1) mod 2^CNT_W` (42_pacing_counter.md R90). -/
def countUp (c : Config) (n : Nat) : Nat := (n + 1) % 2 ^ c.params.cntW

/-- `DLY - 1`, in `DLY_W` bits (42_pacing_counter.md R90, 00_scope.md R15). It never wraps where WAIT_TICK is selected; log
entry 7 for the value elsewhere. -/
def countDown (c : Config) (n : Nat) : Nat := (n + (2 ^ c.params.dlyW - 1)) % 2 ^ c.params.dlyW

/-- The completion of a handshake, seen outside the block (70_reset_and_hazards.md R125). -/
def handOver (s : State) (h : Handshake) : State := { s with handed := h :: s.handed }

/-- Driving port `dac_data` (40_waveform_rom.md R75). -/
def driveData (s : State) (w : Word) : State := { s with dacData := some w }

/-- The outputs, functions of the state alone (10_state.md R33). -/
def outputs (c : Config) (r : Regs) : Outputs where
  dacInitReq := decide (r.phase = .init)
  dacInitCfg := c.params.dacCfg
  dacReq := decide (r.phase = .emit)
  dacData := romRead c (idx r)

/-- Reading the output ports; a fault before the first reset (10_state.md R35, 60_exceptions.md R101). -/
def observe (s : State) : Host.Outcome Outputs Fault Refusal :=
  match s.block with
  | .unspecified => .fault .stateUnspecified
  | .known r => .next (outputs s.cfg r)

/-- A built block before its first reset edge (10_state.md R35), with inputs placed for the coming edges. -/
def powerOn (c : Config) (stimulus : List Inputs) : State where
  cfg := c
  block := .unspecified
  dacData := none
  handed := []
  stimulus := stimulus
  edge := 0

/-- A block launched from an explicitly given state (70_reset_and_hazards.md R125). -/
def launch (c : Config) (r : Regs) (stimulus : List Inputs) : State where
  cfg := c
  block := .known r
  dacData := some (romRead c (idx r))
  handed := []
  stimulus := stimulus
  edge := 0

/-- Building a block: parameters that break a rule are refused (00_scope.md R13, 60_exceptions.md R101). -/
def build (p : Params) (stimulus : List Inputs) : Host.Outcome State Fault Refusal :=
  match h : p.violation with
  | none => .next (powerOn ⟨p, h⟩ stimulus)
  | some broken => .refused (.illegalConfiguration broken)

end Sys2Proof.Machine
end

