-- ==== Sys2Proof/Machine/Pacing.lean ====
section
/-! DEFINITION. The pacing counter family (spec/42_pacing_counter.md): the three WAIT transitions. -/

namespace Sys2Proof.Machine

open Sys2Proof

/-- WAIT_DONE (42_pacing_counter.md R91): `PHASE <- EMIT`. -/
def execWaitDone (s : State) : Host.Outcome State Fault Refusal :=
  withRegs s (fun r => setRegs s { r with phase := .emit })

/-- WAIT_TICK (42_pacing_counter.md R92): `DLY <- DLY - 1`. -/
def execWaitTick (s : State) : Host.Outcome State Fault Refusal :=
  withRegs s (fun r => setRegs s { r with dly := countDown s.cfg r.dly })

/-- WAIT_IDLE (42_pacing_counter.md R93): no assignment. -/
def execWaitIdle (s : State) : Host.Outcome State Fault Refusal := withRegs s (fun _ => s)

end Sys2Proof.Machine
end

