-- ==== Sys2Proof/Machine/Sequencer.lean ====
section
/-! DEFINITION. The sequencer family (spec/41_sequencer.md): reset, initialization, sample output, the illegal phase. Each
meaning is the assignment list of its rule; which one applies at an edge is decided by the control vector (Fetch.lean). -/

namespace Sys2Proof.Machine

open Sys2Proof

/-- RESET (41_sequencer.md R81): in every phase, and before the first reset too (10_state.md R35). -/
def execReset (s : State) : Host.Outcome State Fault Refusal := .next (loadResetValues s)

/-- INIT_HOLD (41_sequencer.md R82): no assignment. -/
def execInitHold (s : State) : Host.Outcome State Fault Refusal := withRegs s (fun _ => s)

/-- INIT_DONE (41_sequencer.md R83): the initialization handshake completes, `PHASE <- EMIT`. -/
def execInitDone (s : State) : Host.Outcome State Fault Refusal :=
  withRegs s (fun r => setRegs (handOver s .init) { r with phase := .emit })

/-- EMIT_HOLD (41_sequencer.md R84): no assignment. -/
def execEmitHold (s : State) : Host.Outcome State Fault Refusal := withRegs s (fun _ => s)

/-- EMIT_DONE (41_sequencer.md R85): the word at the old `CNT` is handed over, then `CNT` is counted up, `DLY` loaded and
`PHASE <- WAIT`. -/
def execEmitDone (s : State) : Host.Outcome State Fault Refusal :=
  withRegs s (fun r => setRegs (handOver s (.sample (romRead s.cfg (idx r))))
    { phase := .wait, cnt := countUp s.cfg r.cnt, dly := delayReload s.cfg })

/-- ILLEGAL_PHASE (41_sequencer.md R87): the reset values are loaded. It reads `PHASE`, so it faults where `PHASE` has no
value (60_exceptions.md R101). -/
def execIllegalPhase (s : State) : Host.Outcome State Fault Refusal := withRegs s (fun _ => loadResetValues s)

end Sys2Proof.Machine
end

