-- ==== Sys2Proof/Machine/Waveform.lean ====
section
/-! DEFINITION. The waveform ROM family (spec/40_waveform_rom.md): the ROM read and the shape check a table may be given. -/

namespace Sys2Proof.Machine

open Sys2Proof

/-- ROMRD (40_waveform_rom.md R75): drives `dac_data` with the word at the address; writes no register and cannot fail
(20_memory.md R45). In a step the address is `IDX`. -/
def execRomrd (addr : Addr) (s : State) : Host.Outcome State Fault Refusal :=
  .next (driveData s (romRead s.cfg addr))

/-- The code of entry `i`, `d[i] = WAVE[i][15:FLAG_W]` (40_waveform_rom.md R77). -/
def sampleCode (c : Config) (a : Addr) : Nat := c.params.dataField (romRead c a)

/-- Two codes agree within a rounding (40_waveform_rom.md R77: "within the table's rounding"). -/
def within (rounding a b : Nat) : Bool := decide (a ≤ b + rounding ∧ b ≤ a + rounding)

/-- The adopted reading of the table's symmetry, odd about index 0 and index 16, with midpoint code `m` (40_waveform_rom.md
R77). A check a supplied table may be given; no rule of the block depends on it. Log entry 19 for the rounding. -/
def oddSymmetric (c : Config) (m rounding : Nat) : Bool :=
  (List.range 15).all (fun k =>
      within rounding (sampleCode c (BitVec.ofNat 5 (k + 1)) + sampleCode c (BitVec.ofNat 5 (31 - k))) (2 * m))
    && within rounding (sampleCode c 0) m && within rounding (sampleCode c 16) m

end Sys2Proof.Machine
end

