-- ==== Sys2Proof/Syntax.lean ====
section
/-! DEFINITION. The rows of spec/opcode_table.json: the nine transitions that the control vector selects and the
combinational ROM read (30_encoding.md R60, R65). -/

namespace Sys2Proof

/-- One constructor per row of the table. The nine transitions take no operand (their table rows have no field); the
ROM read takes the 5-bit address of format `ROM_ADDR`. -/
inductive Instr where
  /-- RESET (41_sequencer.md R81) -/
  | reset
  /-- INIT_HOLD (41_sequencer.md R82) -/
  | initHold
  /-- INIT_DONE (41_sequencer.md R83) -/
  | initDone
  /-- EMIT_HOLD (41_sequencer.md R84) -/
  | emitHold
  /-- EMIT_DONE (41_sequencer.md R85) -/
  | emitDone
  /-- WAIT_DONE (42_pacing_counter.md R91) -/
  | waitDone
  /-- WAIT_TICK (42_pacing_counter.md R92) -/
  | waitTick
  /-- WAIT_IDLE (42_pacing_counter.md R93) -/
  | waitIdle
  /-- ILLEGAL_PHASE (41_sequencer.md R87) -/
  | illegalPhase
  /-- ROMRD (40_waveform_rom.md R75), with the address in field `addr` -/
  | romrd (addr : Addr)
deriving DecidableEq, Repr

/-- The name of a transition or of the ROM read (30_encoding.md R70). -/
def Instr.mnemonic : Instr → String
  | .reset => "RESET"
  | .initHold => "INIT_HOLD"
  | .initDone => "INIT_DONE"
  | .emitHold => "EMIT_HOLD"
  | .emitDone => "EMIT_DONE"
  | .waitDone => "WAIT_DONE"
  | .waitTick => "WAIT_TICK"
  | .waitIdle => "WAIT_IDLE"
  | .illegalPhase => "ILLEGAL_PHASE"
  | .romrd _ => "ROMRD"

/-- The two formats of spec/opcode_table.json (30_encoding.md R60, R61). -/
inductive Format where
  /-- `CV7`, the 7-bit control vector -/
  | cv7
  /-- `ROM_ADDR`, the 5-bit ROM address -/
  | romAddr
deriving DecidableEq, Repr

/-- The format of an instruction's row. -/
def Instr.format : Instr → Format
  | .reset => .cv7
  | .initHold => .cv7
  | .initDone => .cv7
  | .emitHold => .cv7
  | .emitDone => .cv7
  | .waitDone => .cv7
  | .waitTick => .cv7
  | .waitIdle => .cv7
  | .illegalPhase => .cv7
  | .romrd _ => .romAddr

/-- How many bits a word of the format has (30_encoding.md R69; 00_scope.md R6). -/
def Format.width : Format → Nat
  | .cv7 => 7
  | .romAddr => 5

end Sys2Proof
end

