-- ==== Sys2Proof/Machine/Dispatch.lean ====
section
/-! DEFINITION. One arm per row of spec/opcode_table.json. -/

namespace Sys2Proof.Machine

def exec (i : Instr) (s : State) : Host.Outcome State Fault Refusal :=
  match i with
  | .reset => Sys2Proof.Machine.execReset s
  | .initHold => Sys2Proof.Machine.execInitHold s
  | .initDone => Sys2Proof.Machine.execInitDone s
  | .emitHold => Sys2Proof.Machine.execEmitHold s
  | .emitDone => Sys2Proof.Machine.execEmitDone s
  | .waitDone => Sys2Proof.Machine.execWaitDone s
  | .waitTick => Sys2Proof.Machine.execWaitTick s
  | .waitIdle => Sys2Proof.Machine.execWaitIdle s
  | .illegalPhase => Sys2Proof.Machine.execIllegalPhase s
  | .romrd addr => Sys2Proof.Machine.execRomrd addr s

end Sys2Proof.Machine
end

