-- ==== Sys2Proof/WellFormed.lean ====
section
/-! DEFINITION. What is well formed: words, instructions and configurations. The checks on a configuration, one per
constraint of spec/00_scope.md R8 to R12, are Params.violation of Config.lean. -/

namespace Sys2Proof

/-- A word has no bit above its format's width: `CV` is always exactly 7 bits (30_encoding.md R69), a ROM address exactly
5 (00_scope.md R6). -/
def Format.fits (f : Format) (w : Nat) : Bool := decide (w < 2 ^ f.width)

/-- Every term of `Instr` is well formed: the transitions have no operand, and every 5-bit address is legal and aligned
(20_memory.md R45). -/
def Instr.wellFormed : Instr → Bool
  | .reset => true
  | .initHold => true
  | .initDone => true
  | .emitHold => true
  | .emitDone => true
  | .waitDone => true
  | .waitTick => true
  | .waitIdle => true
  | .illegalPhase => true
  | .romrd _ => true

/-- A set of parameters is a configuration of this block (00_scope.md R13). -/
def Params.wellFormed (p : Params) : Bool := p.violation.isNone

end Sys2Proof
end

