-- ==== Sys2Proof/Decode.lean ====
section
/-! DEFINITION. The transition map of spec/30_encoding.md R65 as a table of rows, the decoder that reads it, and the
encoder. -/

namespace Sys2Proof

/-- One row of the transition map: the row applies where `(CV & mask) == hit` (30_encoding.md R65). -/
structure CVRow where
  instr : Instr
  hit : ControlVector
  mask : ControlVector
deriving DecidableEq, Repr

/-- `(CV & mask) == match` (30_encoding.md R65). -/
def CVRow.applies (row : CVRow) (cv : ControlVector) : Bool := cv &&& row.mask == row.hit

/-- The transition map, in the order of 30_encoding.md R65. -/
def transitionMap : List CVRow :=
  [ ⟨.reset, 0x40, 0x40⟩,
    ⟨.initHold, 0x00, 0x78⟩,
    ⟨.initDone, 0x08, 0x78⟩,
    ⟨.emitHold, 0x10, 0x74⟩,
    ⟨.emitDone, 0x14, 0x74⟩,
    ⟨.waitDone, 0x21, 0x71⟩,
    ⟨.waitTick, 0x22, 0x73⟩,
    ⟨.waitIdle, 0x20, 0x73⟩,
    ⟨.illegalPhase, 0x30, 0x70⟩ ]

/-- The first row that applies (30_encoding.md R65). -/
def firstRow (cv : ControlVector) : Option CVRow := transitionMap.find? (fun row => row.applies cv)

/-- The map is total: some row applies to each of the 128 values (30_encoding.md R66). -/
theorem firstRow_isSome (cv : ControlVector) : (firstRow cv).isSome = true := by
  revert cv; decide

/-- The transition that a control vector selects: a total function from 7 bits (30_encoding.md R66). -/
def decodeCV (cv : ControlVector) : Instr := ((firstRow cv).get (firstRow_isSome cv)).instr

/-- Why a word is no instruction. -/
inductive DecodeError where
  /-- a control vector with a bit above bit 6 (30_encoding.md R69) -/
  | cvTooWide
  /-- a ROM address above 31 (20_memory.md R45) -/
  | addressTooWide
deriving DecidableEq, Repr

/-- The instruction that a word of a format stands for, on any number. -/
def decodeWord (f : Format) (w : Nat) : Except DecodeError Instr :=
  match f with
  | .cv7 => if f.fits w then .ok (decodeCV (BitVec.ofNat 7 w)) else .error .cvTooWide
  | .romAddr => if f.fits w then .ok (.romrd (BitVec.ofNat 5 w)) else .error .addressTooWide

/-- The format whose words have this many bits, or this many after rounding up to whole bytes. Both formats fill one
byte; a byte is read as a control vector, since only `CV` selects a transition (30_encoding.md R60). DESIGN CHOICE (log
entry 11). -/
def formatOfBits (nbits : Nat) : Option Format :=
  if nbits ≤ 5 then some .romAddr
  else if nbits = 7 ∨ nbits = 8 then some .cv7
  else none

/-- The instruction the decoder reads from a word of `nbits` bits. -/
def decodeTableWord (nbits w : Nat) : Option Instr :=
  match formatOfBits nbits with
  | none => none
  | some f => (decodeWord f w).toOption

/-- The word of an instruction: a transition's `match` value (every bit its row ignores is 0), or the ROM address
(30_encoding.md R60, R65). -/
def encode : Instr → Nat
  | .reset => 0b1000000
  | .initHold => 0b0000000
  | .initDone => 0b0001000
  | .emitHold => 0b0010000
  | .emitDone => 0b0010100
  | .waitDone => 0b0100001
  | .waitTick => 0b0100010
  | .waitIdle => 0b0100000
  | .illegalPhase => 0b0110000
  | .romrd addr => addr.toNat

end Sys2Proof
end

