-- ==== Sys2Proof/Machine/Fetch.lean ====
section
/-! DEFINITION. What happens around a transition at one rising edge of `clk`: sampling the inputs, selecting the
transition, and settling the ROM read in the cycle that follows (spec/30_encoding.md R60 to R67, spec/41_sequencer.md
R80); and placing a table word where the next edge takes it. -/

namespace Sys2Proof.Machine

open Sys2Proof

/-- The inputs sampled at the coming edge: the first placed ones, or free ones (70_reset_and_hazards.md R125; log entry 3). -/
def nextInputs (s : State) : Inputs :=
  match s.stimulus with
  | [] => Config.freeInputs s.edge
  | inp :: _ => inp

/-- The transition the coming edge applies: the one `CV` selects (41_sequencer.md R80). Before the first reset `PHASE` and
`DLY` have no value; with `rst = 1` the map does not read them and RESET applies, with `rst = 0` nothing can be selected
(10_state.md R35, 60_exceptions.md R101; 95_test_vectors.md S-1). -/
def selected (s : State) : Option Instr :=
  match s.block with
  | .unspecified => if (nextInputs s).rst then some .reset else none
  | .known r => some (decodeCV (controlVector (nextInputs s) r))

/-- The edge has passed: its inputs are used up. -/
def pastEdge (s : State) : State := { s with stimulus := s.stimulus.tail, edge := s.edge + 1 }

/-- The cycle after the edge: the ROM read at the new `IDX` drives `dac_data` (20_memory.md R43, 70_reset_and_hazards.md
R123; log entry 10). -/
def settle (s : State) : Host.Outcome State Fault Refusal :=
  match s.block with
  | .unspecified => .fault .stateUnspecified
  | .known r => Sys2Proof.Machine.execRomrd (idx r) (pastEdge s)

/-- A transition's outcome carried into the next cycle. -/
def intoNextCycle (o : Host.Outcome State Fault Refusal) : Host.Outcome State Fault Refusal :=
  match o with
  | .next t => settle t
  | .fault f => .fault f
  | .refused x => .refused x

/-- Input values with every port low: they select a transition that keeps `CNT` in every legal phase. -/
def quietInputs : Inputs := { rst := false, dacInitAck := false, dacAck := false, tick := false }

/-- The input bits of a control vector (30_encoding.md R61). -/
def inputsOfCV (cv : ControlVector) : Inputs where
  rst := cv.getLsbD 6
  dacInitAck := cv.getLsbD 3
  dacAck := cv.getLsbD 2
  tick := cv.getLsbD 1

/-- The registers that a placed table word starts from. A block before its first reset has none, and 10_state.md R35 leaves
them unspecified. DESIGN CHOICE: placing a word on such a block launches it from the reset values (`CNT = 0` among them), with
what the word names set over them (log entry 20). No step uses this. -/
def regsOrReset (b : BlockState) : Regs :=
  match b with
  | .unspecified => Regs.reset
  | .known r => r

/-- A value of `DLY` whose `DLY_Z` is the given bit, the present one where it already is (30_encoding.md R61). -/
def delayWithZ (z : Bool) (dly : Nat) : Nat := if z then 0 else if dly = 0 then 1 else dly

/-- The state whose next edge samples the control vector: its input bits placed as the next inputs, `PHASE` and `DLY_Z` set
to its other bits (log entry 12; log entry 20 for a block before its first reset). -/
def placeCV (s : State) (cv : ControlVector) : State :=
  let r := regsOrReset s.block
  { s with
    block := .known { r with phase := phaseOfBits (cv.extractLsb' 4 2), dly := delayWithZ (cv.getLsbD 0) r.dly }
    stimulus := inputsOfCV cv :: s.stimulus }

/-- The state whose next step reads the ROM at the address: the low five bits of `CNT` set to it, and quiet inputs placed so
that `CNT` keeps them; an illegal `PHASE`, in which `CNT` would not, becomes INIT (log entry 12; log entry 20 for a block before
its first reset). -/
def placeAddress (s : State) (a : Addr) : State :=
  let r := regsOrReset s.block
  { s with
    block := .known { r with
      phase := if r.phase = .illegal then .init else r.phase
      cnt := r.cnt / 32 * 32 + a.toNat }
    stimulus := quietInputs :: s.stimulus }

/-- A table word placed where the next step takes it; a word of no format changes nothing. -/
def placeWord (s : State) (nbits w : Nat) : State :=
  match formatOfBits nbits with
  | some .cv7 => placeCV s (BitVec.ofNat 7 w)
  | some .romAddr => placeAddress s (BitVec.ofNat 5 w)
  | none => s

end Sys2Proof.Machine
end

