-- ==== Sys2Proof/Machine/Step.lean ====
section
/-! DEFINITION. One step: one rising edge of `clk` and the cycle after it (spec/41_sequencer.md R80, spec/00_scope.md R16). -/

namespace Sys2Proof.Machine

open Sys2Proof

/-- At the edge, the selected transition; in the cycle after it, the ROM read at the new index. -/
def step (s : State) : Host.Outcome State Fault Refusal :=
  match selected s with
  | none => .fault .stateUnspecified
  | some i => intoNextCycle (exec i s)

/-- A word of the opcode table placed where the next step takes it. -/
def State.withFetchWord (s : State) (nbits w : Nat) : State := placeWord s nbits w

end Sys2Proof.Machine
end

