-- ==== Sys2Proof/Machine/Stimulus.lean ====
section
/-! DEFINITION. The notation of runs as data: stimulus lines with their shorthand, and trace lines (spec/30_encoding.md R70,
R71). -/

namespace Sys2Proof.Machine

open Sys2Proof

/-- An input that a `tie` may hold at 1 (30_encoding.md R71). -/
inductive TiedPin where
  /-- `tie ia=1` -/
  | dacInitAck
  /-- `tie da=1` -/
  | dacAck
  /-- `tie tk=1` -/
  | tick
deriving DecidableEq, Repr

/-- A stimulus line: the inputs it names (30_encoding.md R70). -/
structure LinePins where
  rst : Option Bool
  dacInitAck : Option Bool
  dacAck : Option Bool
  tick : Option Bool
deriving DecidableEq, Repr

/-- A stimulus line or one of its shorthands (30_encoding.md R71). -/
inductive StimulusItem where
  /-- `tie <pin>=1` -/
  | tie (pin : TiedPin)
  /-- `c<k>: ...` -/
  | line (pins : LinePins)
  /-- `repeat N { <line> }` -/
  | times (n : Nat) (pins : LinePins)
  /-- `reset` -/
  | reset
deriving DecidableEq, Repr

/-- The input values of a line under the ties: a named input as named, another as tied, 0 where not tied (30_encoding.md R71;
log entry 18 for an untied input that a line does not name). -/
def lineInputs (ties : List TiedPin) (l : LinePins) : Inputs where
  rst := l.rst.getD false
  dacInitAck := l.dacInitAck.getD (decide (.dacInitAck ∈ ties))
  dacAck := l.dacAck.getD (decide (.dacAck ∈ ties))
  tick := l.tick.getD (decide (.tick ∈ ties))

/-- The line `reset` stands for (30_encoding.md R71). -/
def resetLine : LinePins := { rst := some true, dacInitAck := none, dacAck := none, tick := none }

/-- The plain stimulus lines that a stimulus stands for, under the ties made so far (30_encoding.md R71). -/
def expandUnder : List TiedPin → List StimulusItem → List Inputs
  | _, [] => []
  | ties, .tie pin :: rest => expandUnder (pin :: ties) rest
  | ties, .line l :: rest => lineInputs ties l :: expandUnder ties rest
  | ties, .times n l :: rest => List.replicate n (lineInputs ties l) ++ expandUnder ties rest
  | ties, .reset :: rest => lineInputs ties resetLine :: expandUnder ties rest

/-- The input vectors of a stimulus, one per edge. -/
def expandStimulus (items : List StimulusItem) : List Inputs := expandUnder [] items

/-- A trace line: the edge, the state before it, its inputs, its control vector, its transition, the outputs during the
cycle, the state after it (30_encoding.md R70). The control vector and the outputs have no value before the first reset. -/
structure TraceLine where
  edge : Nat
  before : BlockState
  inputs : Inputs
  cv : Option ControlVector
  transition : Instr
  out : Option Outputs
  after : BlockState
deriving DecidableEq, Repr

/-- The control vector of the coming edge, where all its bits have a value (30_encoding.md R61). -/
def cvOf (s : State) : Option ControlVector :=
  match s.block with
  | .unspecified => none
  | .known r => some (controlVector (nextInputs s) r)

/-- The outputs in the present cycle, where they have a value (10_state.md R33, R35). -/
def outputsOf (s : State) : Option Outputs :=
  match s.block with
  | .unspecified => none
  | .known r => some (outputs s.cfg r)

/-- The trace of the coming edges, as many as asked for, up to the first stop (30_encoding.md R70). -/
def traceRun : Nat → State → List TraceLine
  | 0, _ => []
  | k + 1, s =>
    match selected s, step s with
    | some i, .next t =>
      { edge := s.edge, before := s.block, inputs := nextInputs s, cv := cvOf s, transition := i, out := outputsOf s,
        after := t.block } :: traceRun k t
    | _, _ => []

end Sys2Proof.Machine
end

