-- ==== Sys2Proof/Safety.lean ====
section
/-! DEFINITION. The terms claims are stated in: the invariants of legal runs (spec/10_state.md R36), the play-back of the
table (spec/40_waveform_rom.md R78), runs over given inputs and the duties of the environment (spec/70_reset_and_hazards.md
R125, R126). -/

namespace Sys2Proof.Machine

open Sys2Proof

/-- `CNT` and `DLY` are values of `CNT_W` and `DLY_W` bits (10_state.md R18). -/
def InWidth (c : Config) (r : Regs) : Prop := r.cnt < 2 ^ c.params.cntW ∧ r.dly < 2 ^ c.params.dlyW

/-- The four invariants of every legal run (10_state.md R36). -/
structure LegalRegs (c : Config) (r : Regs) : Prop where
  notIllegal : r.phase ≠ .illegal
  noDelayOutsideWait : r.phase ≠ .wait → r.dly = 0
  delayBounded : r.phase = .wait → r.dly ≤ c.params.delayTicks
  countZeroInInit : r.phase = .init → r.cnt = 0

/-- What holds of the registers, where they have a value, is within their widths and legal. -/
def LegalState (s : State) : Prop := ∀ r, s.block = .known r → InWidth s.cfg r ∧ LegalRegs s.cfg r

/-- Port `dac_data` shows the word at `IDX`, and nothing before the first reset (20_memory.md R43, 10_state.md R35). -/
def DataSettled (s : State) : Prop :=
  (∀ r, s.block = .known r → s.dacData = some (romRead s.cfg (idx r))) ∧ (s.block = .unspecified → s.dacData = none)

/-- The handshakes of `n` consecutive emits that begin at counter value `start`, newest first (40_waveform_rom.md R78). -/
def playback (c : Config) (start : Nat) : Nat → List Handshake
  | 0 => []
  | n + 1 => .sample (romRead c (BitVec.ofNat 5 (start + n))) :: playback c start n

/-- After an initialization, what was handed over since is the table from entry 0 in cyclic order, and `CNT` counts it; in
INIT the count is 0 (10_state.md R19, 41_sequencer.md R86, 70_reset_and_hazards.md R116). -/
def PlaysFromZero (s : State) : Prop :=
  ∀ r, s.block = .known r →
    (r.phase = .init → r.cnt = 0) ∧
    (r.phase = .emit ∨ r.phase = .wait →
      ∃ n older, s.handed = playback s.cfg 0 n ++ .init :: older ∧ r.cnt = n % 2 ^ s.cfg.params.cntW)

/-- A block in EMIT or WAIT that has handed over, on top of `base`, the table in cyclic order from counter value `start` on, and
whose CNT has advanced by as much (40_waveform_rom.md R78). -/
def ReplaysFrom (start : Nat) (base : List Handshake) (s : State) : Prop :=
  ∃ r n, s.block = .known r ∧ (r.phase = .emit ∨ r.phase = .wait) ∧
    s.handed = playback s.cfg start n ++ base ∧ r.cnt = (start + n) % 2 ^ s.cfg.params.cntW

/-- The words handed over, newest first. -/
def wordsOf (h : List Handshake) : List Word :=
  h.filterMap (fun x => match x with | .init => none | .sample w => some w)

/-- The run over the given inputs, one edge for each (70_reset_and_hazards.md R125). -/
def runInputs (s : State) (ins : List Inputs) : Host.Outcome State Fault Refusal :=
  Host.Core.run Sys2Proof.core ins.length { s with stimulus := ins ++ s.stimulus }

/-- No edge of the inputs resets the block. -/
def NoReset (ins : List Inputs) : Prop := ∀ inp ∈ ins, inp.rst = false

/-- How many edges sample a tick. -/
def tickCount (ins : List Inputs) : Nat := (ins.filter (fun inp => inp.tick)).length

/-- The inputs of a platform that ties every acknowledge and the tick to 1 and does not reset. -/
def tiedInputs : Inputs := { rst := false, dacInitAck := true, dacAck := true, tick := true }

/-- The first `k` input vectors of an infinite sequence. -/
def firstInputs (σ : Nat → Inputs) (k : Nat) : List Inputs := (List.range k).map σ

/-- The block after `k` edges of an infinite input sequence, launched from given registers, has these registers. -/
def ReachesAt (c : Config) (start : Regs) (σ : Nat → Inputs) (k : Nat) (r : Regs) : Prop :=
  ∃ t, runInputs (launch c start []) (firstInputs σ k) = .next t ∧ t.block = .known r

/-- The duties of the environment toward a launched run, as premises of a claim (70_reset_and_hazards.md R126): the platform
does not reset again, and each collaborator answers a block that waits for it. -/
structure EnvironmentAnswers (c : Config) (start : Regs) (σ : Nat → Inputs) : Prop where
  noReset : ∀ k, (σ k).rst = false
  initAnswered : ∀ k r, ReachesAt c start σ k r → r.phase = .init → ∃ j, k ≤ j ∧ (σ j).dacInitAck = true
  sampleAnswered : ∀ k r, ReachesAt c start σ k r → r.phase = .emit → ∃ j, k ≤ j ∧ (σ j).dacAck = true
  ticksArrive : ∀ k r, ReachesAt c start σ k r → r.phase = .wait → r.dly ≠ 0 → ∃ j, k ≤ j ∧ (σ j).tick = true

/-- The duty that keeps an acknowledge fresh: `dac_ack` is low when the next EMIT phase is about to begin
(70_reset_and_hazards.md R119). The block itself takes the level as given. -/
def LowersAcknowledge (c : Config) (start : Regs) (σ : Nat → Inputs) : Prop :=
  ∀ k r, ReachesAt c start σ k r → r.phase = .wait → r.dly = 0 → (σ k).dacAck = false

/-- The duty of a time base slower than `clk`: a tick is a one-cycle pulse (70_reset_and_hazards.md R122). -/
def PulsesTicks (σ : Nat → Inputs) : Prop := ∀ k, (σ k).tick = true → (σ (k + 1)).tick = false

/-- The duty to reset a block before its outputs are relied on (70_reset_and_hazards.md R114, R126). -/
def ResetsFirst (σ : Nat → Inputs) : Prop := (σ 0).rst = true

end Sys2Proof.Machine
end

