-- ==== Sys2Proof/Certificates/Slice0/Obligations.lean ====
section
/-! DEFINITION. The statements for the provers. Each docstring names the rule of spec/ a statement formalises, or the log
entry it rests on. -/

open Sys2Proof Sys2Proof.Machine

/-! ## Configuration and encoding -/

/-- 00_scope.md R13: a set of parameters that breaks a rule is refused, any other is built, and no step changes it. The
constraints are those of R8 to R12. -/
def Obligations.IllegalParametersAreRefused : Prop :=
  (∀ (p : Params) (stim : List Inputs),
    (p.violation = none ↔
      (12 ≤ p.dataW ∧ p.dataW ≤ 16) ∧ p.flagVal < 2 ^ p.flagW ∧
      (∀ a : Fin 32, p.wave[a].toNat % 2 ^ p.flagW = p.flagVal) ∧
      5 ≤ p.cntW ∧ (1 ≤ p.dlyW ∧ p.delayTicks < 2 ^ p.dlyW) ∧ (1 ≤ p.cfgW ∧ p.dacCfg < 2 ^ p.cfgW)) ∧
    (p.violation = none → ∃ c : Config, c.params = p ∧ build p stim = .next (powerOn c stim)) ∧
    (∀ broken, p.violation = some broken → build p stim = .refused (.illegalConfiguration broken))) ∧
  (∀ s t : State, step s = .next t → t.cfg = s.cfg)

/-- 30_encoding.md R66: exactly one row applies to each of the 128 values, and the decoder gives it; the row sizes. -/
def Obligations.EveryControlVectorMatchesOneRow : Prop :=
  (∀ cv : ControlVector,
    (transitionMap.filter (fun row => row.applies cv)).map CVRow.instr = [decodeCV cv]) ∧
  (transitionMap.map (fun row => ((List.finRange 128).filter (fun n => row.applies (BitVec.ofFin n))).length)
    = [64, 8, 8, 8, 8, 8, 4, 4, 16])

/-- The word the encoder writes for an instruction fits its format and decodes to it, with every ROM address. -/
def Obligations.DecodingAnEncodedInstructionGivesItBack : Prop :=
  ∀ i : Instr, i.wellFormed = true → i.format.fits (encode i) = true ∧ decodeWord i.format (encode i) = .ok i

/-- 30_encoding.md R65: words written out bit by bit from the map, the ignored bits set in some, and the instructions they
stand for. A word with a bit above the seventh is no control vector (R69). -/
def Obligations.WrittenWordsDecode : Prop :=
  decodeCV 0b1100110 = .reset ∧ decodeCV 0b0000111 = .initHold ∧ decodeCV 0b0001000 = .initDone ∧
  decodeCV 0b0011011 = .emitHold ∧ decodeCV 0b0011111 = .emitDone ∧ decodeCV 0b0101111 = .waitDone ∧
  decodeCV 0b0101110 = .waitTick ∧ decodeCV 0b0101100 = .waitIdle ∧ decodeCV 0b0110101 = .illegalPhase ∧
  decodeWord .romAddr 0b11111 = .ok (.romrd 31) ∧ decodeWord .cv7 0b10000000 = .error .cvTooWide

/-- 30_encoding.md R61: which signal each bit of the control vector is. -/
def Obligations.ControlVectorBitsComeFromTheirSources : Prop :=
  ∀ (inp : Inputs) (r : Regs),
    (controlVector inp r).getLsbD 6 = inp.rst ∧
    (controlVector inp r).extractLsb' 4 2 = phaseBits r.phase ∧
    (controlVector inp r).getLsbD 3 = inp.dacInitAck ∧
    (controlVector inp r).getLsbD 2 = inp.dacAck ∧
    (controlVector inp r).getLsbD 1 = inp.tick ∧
    (controlVector inp r).getLsbD 0 = decide (r.dly = 0) ∧
    phaseBits .init = 0b00 ∧ phaseBits .emit = 0b01 ∧ phaseBits .wait = 0b10 ∧ phaseBits .illegal = 0b11

/-- 30_encoding.md R67: an input outside its phase changes nothing at all of the next state, `DLY_Z` is read in WAIT only,
and with `rst = 1` every other bit is ignored. -/
def Obligations.InputsOutsideTheirPhaseAreIgnored : Prop :=
  ∀ (s : State) (r : Regs) (inp : Inputs) (b : Bool), s.block = .known r →
    (r.phase ≠ .init → runInputs s [{ inp with dacInitAck := b }] = runInputs s [inp]) ∧
    (r.phase ≠ .emit → runInputs s [{ inp with dacAck := b }] = runInputs s [inp]) ∧
    (¬ (r.phase = .wait ∧ r.dly ≠ 0) → runInputs s [{ inp with tick := b }] = runInputs s [inp]) ∧
    (r.phase ≠ .wait → ∀ d, decodeCV (controlVector inp { r with dly := d }) = decodeCV (controlVector inp r)) ∧
    (∀ (inp' : Inputs) (r' : Regs), inp.rst = true → inp'.rst = true →
      decodeCV (controlVector inp r) = decodeCV (controlVector inp' r') ∧ runInputs s [inp] = runInputs s [inp'])

/-! ## The signals, the outputs, the table -/

/-- 10_state.md R21 and 40_waveform_rom.md R79: `IDX` is the low five bits of `CNT`, which is `CNT mod 32`; it is below 32,
and 32 further counts, across the wrap too, give the same index. -/
def Obligations.IndexIsTheCounterModulo32 : Prop :=
  ∀ (c : Config) (r : Regs), r.cnt < 2 ^ c.params.cntW →
    (∀ k, k < 5 → (idx r).getLsbD k = r.cnt.testBit k) ∧
    (idx r).toNat = r.cnt % 32 ∧ (idx r).toNat < 32 ∧
    idx { r with cnt := r.cnt + 32 } = idx r ∧
    idx { r with cnt := (r.cnt + 32) % 2 ^ c.params.cntW } = idx r

/-- 10_state.md R33: the outputs are functions of the state alone; reading them is a fault only before the first reset
(R35). -/
def Obligations.OutputsFollowTheStateAlone : Prop :=
  (∀ (s : State) (r : Regs), s.block = .known r →
    observe s = .next
      { dacInitReq := decide (phaseBits r.phase = 0b00), dacInitCfg := s.cfg.params.dacCfg,
        dacReq := decide (phaseBits r.phase = 0b01), dacData := romRead s.cfg (idx r) }) ∧
  (∀ (s s' : State), s.cfg = s'.cfg → s.block = s'.block → observe s = observe s')

/-- 10_state.md R34: what every edge with `rst = 1` leaves, from any state, and the outputs in the cycle after it. -/
def Obligations.ResetEdgeLeavesTheResetValues : Prop :=
  (∀ s : State, (nextInputs s).rst = true →
    ∃ t, step s = .next t ∧ t.block = .known { phase := .init, cnt := 0, dly := 0 } ∧ dlyZ { phase := .init, cnt := 0, dly := 0 } = true ∧
      t.dacData = some s.cfg.params.wave[0] ∧
      observe t = .next { dacInitReq := true, dacInitCfg := s.cfg.params.dacCfg, dacReq := false, dacData := s.cfg.params.wave[0] }) ∧
  (State.reset.block = .known { phase := .init, cnt := 0, dly := 0 } ∧
    observe State.reset = .next
      { dacInitReq := true, dacInitCfg := State.reset.cfg.params.dacCfg, dacReq := false, dacData := State.reset.cfg.params.wave[0] } ∧
    State.reset.dacData = some State.reset.cfg.params.wave[0])

/-- 10_state.md R35 and 60_exceptions.md R101: before the first reset edge, an edge without `rst` and a reading of the outputs
fault, as does every transition but RESET; an edge with `rst = 1` gives the block its reset values. -/
def Obligations.NothingIsReadBeforeTheFirstReset : Prop :=
  ∀ s : State, s.block = .unspecified →
    observe s = .fault .stateUnspecified ∧
    ((nextInputs s).rst = false → step s = .fault .stateUnspecified) ∧
    ((nextInputs s).rst = true → ∃ t, step s = .next t ∧ t.block = .known Regs.reset ∧ t.handed = s.handed) ∧
    (∀ i ∈ [Instr.initHold, .initDone, .emitHold, .emitDone, .waitDone, .waitTick, .waitIdle, .illegalPhase],
      exec i s = .fault .stateUnspecified)

/-- 00_scope.md R8, R9 and 30_encoding.md R63: every entry of a legal table is its data code above the constant flags. -/
def Obligations.EverySampleIsCodeAboveConstantFlags : Prop :=
  ∀ (c : Config) (a : Addr),
    c.params.flagField (romRead c a) = c.params.flagVal ∧
    c.params.dataField (romRead c a) < 2 ^ c.params.dataW ∧
    (romRead c a).toNat = c.params.dataField (romRead c a) * 2 ^ c.params.flagW + c.params.flagVal

/-! ## The ten rows of the opcode table -/

/-- 41_sequencer.md R81: RESET from every state, before the first reset too. -/
def Obligations.ResetLoadsTheResetValues : Prop :=
  ∀ s : State,
    exec .reset s = .next { s with block := .known { phase := .init, cnt := 0, dly := 0 } } ∧
    (selected s = some .reset ↔ (nextInputs s).rst = true) ∧
    dlyZ { phase := .init, cnt := 0, dly := 0 } = true ∧
    (∀ r, s.block = .known r → observe s = .next (outputs s.cfg r)) ∧
    (∀ ins : List Inputs, ins ≠ [] → (∀ inp ∈ ins, inp.rst = true) →
      ∃ t, runInputs s ins = .next t ∧ t.block = .known { phase := .init, cnt := 0, dly := 0 } ∧ t.handed = s.handed)

/-- 41_sequencer.md R82: INIT_HOLD changes nothing, and without an acknowledge the block stays in INIT for ever. -/
def Obligations.InitHoldKeepsTheState : Prop :=
  ∀ (s : State) (r : Regs), s.block = .known r →
    exec .initHold s = .next s ∧
    (selected s = some .initHold ↔
      (nextInputs s).rst = false ∧ r.phase = .init ∧ (nextInputs s).dacInitAck = false) ∧
    (r.phase = .init →
      observe s = .next { dacInitReq := true, dacInitCfg := s.cfg.params.dacCfg, dacReq := false, dacData := romRead s.cfg (idx r) }) ∧
    (r.phase = .init → ∀ ins : List Inputs, NoReset ins → (∀ inp ∈ ins, inp.dacInitAck = false) →
      ∃ t, runInputs s ins = .next t ∧ t.block = s.block ∧ t.handed = s.handed)

/-- 41_sequencer.md R83: INIT_DONE moves PHASE to EMIT and completes the initialization; no other transition than RESET and
ILLEGAL_PHASE enters INIT. -/
def Obligations.InitDoneEntersEmit : Prop :=
  ∀ (s : State) (r : Regs), s.block = .known r →
    exec .initDone s = .next { s with block := .known { r with phase := .emit }, handed := .init :: s.handed } ∧
    (selected s = some .initDone ↔
      (nextInputs s).rst = false ∧ r.phase = .init ∧ (nextInputs s).dacInitAck = true) ∧
    (r.phase = .init →
      observe s = .next { dacInitReq := true, dacInitCfg := s.cfg.params.dacCfg, dacReq := false, dacData := romRead s.cfg (idx r) }) ∧
    (selected s = some .initDone → ∃ t o, step s = .next t ∧ observe t = .next o ∧ o.dacInitReq = false ∧ o.dacReq = true) ∧
    (∀ t r', step s = .next t → t.block = .known r' → r'.phase = .init → r.phase ≠ .init →
      selected s = some .reset ∨ selected s = some .illegalPhase)

/-- 41_sequencer.md R84: EMIT_HOLD changes nothing; without an acknowledge the block stays in EMIT for ever with one word on
`dac_data`. -/
def Obligations.EmitHoldKeepsTheState : Prop :=
  ∀ (s : State) (r : Regs), s.block = .known r →
    exec .emitHold s = .next s ∧
    (selected s = some .emitHold ↔
      (nextInputs s).rst = false ∧ r.phase = .emit ∧ (nextInputs s).dacAck = false) ∧
    (r.phase = .emit →
      observe s = .next { dacInitReq := false, dacInitCfg := s.cfg.params.dacCfg, dacReq := true, dacData := romRead s.cfg (idx r) }) ∧
    (r.phase = .emit → ∀ ins : List Inputs, NoReset ins → (∀ inp ∈ ins, inp.dacAck = false) →
      ∃ t, runInputs s ins = .next t ∧ t.block = s.block ∧ t.handed = s.handed ∧ observe t = observe s)

/-- 41_sequencer.md R85: EMIT_DONE hands over the word at the old CNT, counts up modulo `2^CNT_W`, loads DELAY_TICKS and
enters WAIT; at the largest CNT the word is entry 31 and the next index is 0; with `DELAY_TICKS = 0` WAIT lasts one cycle. -/
def Obligations.EmitDoneHandsOverThenCountsThenWaits : Prop :=
  ∀ (s : State) (r : Regs), s.block = .known r →
    exec .emitDone s = .next { s with
      block := .known { phase := .wait, cnt := (r.cnt + 1) % 2 ^ s.cfg.params.cntW, dly := s.cfg.params.delayTicks }
      handed := .sample (romRead s.cfg (BitVec.ofNat 5 r.cnt)) :: s.handed } ∧
    (selected s = some .emitDone ↔
      (nextInputs s).rst = false ∧ r.phase = .emit ∧ (nextInputs s).dacAck = true) ∧
    (r.phase = .emit →
      observe s = .next { dacInitReq := false, dacInitCfg := s.cfg.params.dacCfg, dacReq := true, dacData := romRead s.cfg (BitVec.ofNat 5 r.cnt) }) ∧
    (∀ t r', exec .emitDone s = .next t → t.block = .known r' →
      (dlyZ r' = true ↔ s.cfg.params.delayTicks = 0) ∧
      (r.cnt = 2 ^ s.cfg.params.cntW - 1 → r'.cnt = 0 ∧ idx r = 31 ∧ idx r' = 0)) ∧
    (s.cfg.params.delayTicks = 0 → selected s = some .emitDone →
      ∃ t, step s = .next t ∧ ((nextInputs t).rst = false → selected t = some .waitDone))

/-- 41_sequencer.md R87: ILLEGAL_PHASE does what RESET does, without a request on either port during the cycle. -/
def Obligations.IllegalPhaseRecoversAsResetDoes : Prop :=
  ∀ (s : State) (r : Regs), s.block = .known r →
    exec .illegalPhase s = .next { s with block := .known { phase := .init, cnt := 0, dly := 0 } } ∧
    exec .illegalPhase s = exec .reset s ∧
    (selected s = some .illegalPhase ↔ (nextInputs s).rst = false ∧ r.phase = .illegal) ∧
    (r.phase = .illegal →
      observe s = .next { dacInitReq := false, dacInitCfg := s.cfg.params.dacCfg, dacReq := false, dacData := romRead s.cfg (idx r) })

/-- 42_pacing_counter.md R91: WAIT_DONE moves PHASE to EMIT and ignores a tick; with `DELAY_TICKS = 0` it is selected in the
cycle after EMIT_DONE. -/
def Obligations.WaitDoneEntersEmit : Prop :=
  ∀ (s : State) (r : Regs), s.block = .known r →
    exec .waitDone s = .next { s with block := .known { r with phase := .emit } } ∧
    (selected s = some .waitDone ↔ (nextInputs s).rst = false ∧ r.phase = .wait ∧ r.dly = 0) ∧
    (r.phase = .wait →
      observe s = .next { dacInitReq := false, dacInitCfg := s.cfg.params.dacCfg, dacReq := false, dacData := romRead s.cfg (idx r) }) ∧
    (s.cfg.params.delayTicks = 0 → selected s = some .emitDone →
      ∃ t, step s = .next t ∧ ((nextInputs t).rst = false → selected t = some .waitDone))

/-- 42_pacing_counter.md R92: WAIT_TICK counts DLY down by one, and `k` ticked cycles count `k` ticks. -/
def Obligations.WaitTickCountsOneTick : Prop :=
  ∀ (s : State) (r : Regs), s.block = .known r → r.dly < 2 ^ s.cfg.params.dlyW →
    (r.dly ≠ 0 → exec .waitTick s = .next { s with block := .known { r with dly := r.dly - 1 } }) ∧
    (selected s = some .waitTick ↔
      (nextInputs s).rst = false ∧ r.phase = .wait ∧ r.dly ≠ 0 ∧ (nextInputs s).tick = true) ∧
    (r.phase = .wait →
      ∃ o, observe s = .next o ∧ o.dacInitReq = false ∧ o.dacReq = false) ∧
    (r.dly ≠ 0 → dlyZ { r with dly := r.dly - 1 } = decide (r.dly = 1)) ∧
    (r.phase = .wait → ∀ ins : List Inputs, NoReset ins → (∀ inp ∈ ins, inp.tick = true) → ins.length ≤ r.dly →
      ∃ t, runInputs s ins = .next t ∧ t.block = .known { r with dly := r.dly - ins.length })

/-- 42_pacing_counter.md R93: WAIT_IDLE changes nothing; without a tick the block stays in WAIT for ever, and nothing but
RESET leaves WAIT while DLY is not 0. -/
def Obligations.WaitIdleKeepsTheState : Prop :=
  ∀ (s : State) (r : Regs), s.block = .known r →
    exec .waitIdle s = .next s ∧
    (selected s = some .waitIdle ↔
      (nextInputs s).rst = false ∧ r.phase = .wait ∧ r.dly ≠ 0 ∧ (nextInputs s).tick = false) ∧
    (r.phase = .wait → ∃ o, observe s = .next o ∧ o.dacInitReq = false ∧ o.dacReq = false) ∧
    (r.phase = .wait → r.dly ≠ 0 → ∀ ins : List Inputs, NoReset ins → (∀ inp ∈ ins, inp.tick = false) →
      ∃ t, runInputs s ins = .next t ∧ t.block = s.block ∧ t.handed = s.handed) ∧
    (r.phase = .wait → r.dly ≠ 0 → ∀ t r', step s = .next t → t.block = .known r' → r'.phase ≠ .wait →
      selected s = some .reset)

/-- 40_waveform_rom.md R75: ROMRD drives the word at its address and writes nothing else, from every state; in every cycle
`dac_data` is `WAVE[CNT mod 32]`. -/
def Obligations.RomReadDrivesTheSampleOutput : Prop :=
  (∀ (s : State) (a : Addr),
    exec (.romrd a) s = .next { s with dacData := some (s.cfg.params.wave[a.toNat]'a.isLt) }) ∧
  (∀ (s t : State) (r : Regs), step s = .next t → t.block = .known r →
    t.dacData = s.cfg.params.wave[r.cnt % 32]? ∧
    ∃ o, observe t = .next o ∧ t.dacData = some o.dacData)

/-! ## One step -/

/-- 41_sequencer.md R80: at every edge of a block whose registers have a value the step runs the one transition that the
control vector selects, and completes; around it the ROM read settles on the new index, the input vector is used up and the
edge counted. -/
def Obligations.StepRunsTheSelectedTransition : Prop :=
  ∀ (s : State) (r : Regs), s.block = .known r →
    ∃ t r', exec (decodeCV (controlVector (nextInputs s) r)) s = .next t ∧ t.block = .known r' ∧
      step s = .next { t with dacData := some (romRead s.cfg (idx r')), stimulus := s.stimulus.tail, edge := s.edge + 1 }

/-- The model's interface (log entry 12): a table word placed by `withFetchWord` is what the next step runs. A control vector
is sampled whole; a ROM address is what the ROM read of that step reads. It holds of a block before its first reset too, because
placing a word there launches the block (log entry 20). -/
def Obligations.PlacedWordIsRun : Prop :=
  ∀ (s : State) (w : Nat),
    (∀ i, decodeTableWord 8 w = some i →
      selected (s.withFetchWord 8 w) = some i ∧ (s.withFetchWord 8 w).cfg = s.cfg ∧ (s.withFetchWord 8 w).handed = s.handed) ∧
    (∀ a, decodeTableWord 5 w = some (.romrd a) →
      ∃ t r, step (s.withFetchWord 5 w) = .next t ∧ t.block = .known r ∧ idx r = a ∧ t.dacData = some (romRead s.cfg a))

/-- 00_scope.md R16: a state element that a rule does not assign keeps its value. Which transition may change CNT, DLY, PHASE,
the completed handshakes and the driven word, over all instructions. ILLEGAL_PHASE is among the writers of CNT and DLY: R87
against R20 and R22, log entry 8. -/
def Obligations.OnlyTheNamedInstructionsWriteEachElement : Prop :=
  ∀ (i : Instr) (s t : State) (r r' : Regs), s.block = .known r → exec i s = .next t → t.block = .known r' →
    t.cfg = s.cfg ∧ t.stimulus = s.stimulus ∧ t.edge = s.edge ∧
    (i ∉ [Instr.reset, .emitDone, .illegalPhase] → r'.cnt = r.cnt) ∧
    (i ∉ [Instr.reset, .emitDone, .waitTick, .illegalPhase] → r'.dly = r.dly) ∧
    (i ∉ [Instr.reset, .initDone, .emitDone, .waitDone, .illegalPhase] → r'.phase = r.phase) ∧
    (i ∉ [Instr.initDone, .emitDone] → t.handed = s.handed) ∧
    ((∀ a, i ≠ .romrd a) → t.dacData = s.dacData)

/-- 41_sequencer.md R88: the phase changes along the edges of the graph, and no others. -/
def Obligations.PhasesFollowTheGraph : Prop :=
  ∀ (s t : State) (r r' : Regs) (i : Instr), s.block = .known r → selected s = some i → step s = .next t → t.block = .known r' →
    (i = .reset ∧ r'.phase = .init) ∨
    (r.phase, i, r'.phase) ∈
      [(Phase.init, Instr.initHold, Phase.init), (.init, .initDone, .emit), (.emit, .emitHold, .emit), (.emit, .emitDone, .wait),
       (.wait, .waitTick, .wait), (.wait, .waitIdle, .wait), (.wait, .waitDone, .emit), (.illegal, .illegalPhase, .init)]

/-- 60_exceptions.md R103: reset over everything, with nothing handed over; without reset at most one of the three answers is
read at an edge; in WAIT `DLY_Z` over the tick. -/
def Obligations.SimultaneousEventsHavePriorities : Prop :=
  ∀ (s : State) (r : Regs), s.block = .known r →
    (∀ inp : Inputs, inp.rst = true →
      ∃ t, runInputs s [inp] = .next t ∧ t.block = .known Regs.reset ∧ t.handed = s.handed) ∧
    (∃ pin ∈ [Inputs.dacInitAck, Inputs.dacAck, Inputs.tick],
      ∀ inp inp' : Inputs, inp.rst = false → inp'.rst = false → pin inp = pin inp' →
        runInputs s [inp] = runInputs s [inp']) ∧
    (∀ inp : Inputs, inp.rst = false → r.phase = .wait → r.dly = 0 →
      ∃ t, runInputs s [inp] = .next t ∧ t.block = .known { r with phase := .emit })

/-- 10_state.md R29 and 00_scope.md R16: nothing hidden decides an edge. Two machines that agree in configuration, registers and
the sampled inputs agree after it in registers, outputs and what the edge handed over. -/
def Obligations.NothingHiddenDecidesAnEdge : Prop :=
  ∀ (s s' : State) (inp : Inputs), s.cfg = s'.cfg → s.block = s'.block →
    (∀ t, runInputs s [inp] = .next t →
      ∃ t' news, runInputs s' [inp] = .next t' ∧ t'.block = t.block ∧ t'.dacData = t.dacData ∧ observe t' = observe t ∧
        t.handed = news ++ s.handed ∧ t'.handed = news ++ s'.handed) ∧
    (∀ f, runInputs s [inp] = .fault f → runInputs s' [inp] = .fault f)

/-- 70_reset_and_hazards.md R118: `dac_data` changes only at EMIT_DONE, RESET and ILLEGAL_PHASE edges; `dac_init_cfg` never. -/
def Obligations.DataChangesOnlyAtThreeEdges : Prop :=
  ∀ (s t : State) (o o' : Outputs), observe s = .next o → step s = .next t → observe t = .next o' →
    o'.dacInitCfg = o.dacInitCfg ∧
    (o'.dacData ≠ o.dacData → selected s = some .emitDone ∨ selected s = some .reset ∨ selected s = some .illegalPhase)

/-! ## Invariants -/

/-- 10_state.md R36 with the widths of R18: every step keeps the legal states legal, and an edge with `rst = 1` makes any state
legal. -/
def Obligations.LegalStatesStayLegal : Prop :=
  (∀ s t : State, LegalState s → step s = .next t → LegalState t) ∧
  (∀ s t : State, (nextInputs s).rst = true → step s = .next t → LegalState t)

/-- 20_memory.md R43: in the cycle after every edge `dac_data` shows the ROM word at `IDX`, whatever the state before. -/
def Obligations.EveryStepSettlesTheDataPort : Prop :=
  ∀ s t : State, step s = .next t → DataSettled t

/-- 10_state.md R19, 41_sequencer.md R86, 42_pacing_counter.md R95, 70_reset_and_hazards.md R116: what was handed over since the
initialization is entry 0, entry 1, ... of the table in cyclic order, and CNT is their number modulo `2^CNT_W`; every step
keeps it, across the wrap of CNT too. -/
def Obligations.EveryStepPlaysTheTableInOrder : Prop :=
  (∀ s t : State, LegalState s → PlaysFromZero s → step s = .next t → PlaysFromZero t) ∧
  (∀ s t : State, (nextInputs s).rst = true → step s = .next t → PlaysFromZero t)

/-- 40_waveform_rom.md R78, as an invariant: a block in EMIT replays from its own counter value, every step without reset keeps the
replay, and an acknowledged EMIT hands over its next word. -/
def Obligations.EveryUnresetStepKeepsTheReplay : Prop :=
  (∀ (s : State) (r : Regs), s.block = .known r → r.phase = .emit → r.cnt < 2 ^ s.cfg.params.cntW →
    ReplaysFrom r.cnt s.handed s) ∧
  (∀ (start : Nat) (base : List Handshake) (s t : State), ReplaysFrom start base s → (nextInputs s).rst = false →
    step s = .next t → ReplaysFrom start base t) ∧
  (∀ (start n : Nat) (base : List Handshake) (s t : State) (r : Regs), s.block = .known r → r.phase = .emit →
    s.handed = playback s.cfg start n ++ base → r.cnt = (start + n) % 2 ^ s.cfg.params.cntW →
    (nextInputs s).rst = false → (nextInputs s).dacAck = true → step s = .next t →
    t.handed = playback t.cfg start (n + 1) ++ base)

/-- The machine right after reset meets the three invariants. -/
def Obligations.ResetStateMeetsTheInvariants : Prop :=
  LegalState State.reset ∧ DataSettled State.reset ∧ PlaysFromZero State.reset

/-! ## Runs -/

/-- 42_pacing_counter.md R94: EMIT_DONE enters WAIT with DELAY_TICKS to count; from a DLY the delay counts that many ticks, ends in the first cycle after the last one, at once if it is 0, and with a
tick in every cycle the WAIT phase lasts `DELAY_TICKS + 1` cycles. -/
def Obligations.DelayCountsExactlyItsTicks : Prop :=
  (∀ (s : State) (r : Regs) (inp : Inputs), s.block = .known r → r.phase = .emit → inp.rst = false → inp.dacAck = true →
    ∃ t r', runInputs s [inp] = .next t ∧ t.block = .known r' ∧ r'.phase = .wait ∧ r'.dly = s.cfg.params.delayTicks ∧
      r'.dly < 2 ^ t.cfg.params.dlyW) ∧
  ∀ (s : State) (r : Regs), s.block = .known r → r.dly < 2 ^ s.cfg.params.dlyW → r.phase = .wait →
    (∀ ins : List Inputs, NoReset ins → (∀ k, k < ins.length → tickCount (ins.take k) < r.dly) →
      ∃ t, runInputs s ins = .next t ∧ t.block = .known { r with dly := r.dly - tickCount ins }) ∧
    (∀ inp : Inputs, inp.rst = false → r.dly = 0 →
      ∃ t, runInputs s [inp] = .next t ∧ t.block = .known { r with phase := .emit }) ∧
    (∀ k, k ≤ r.dly → ∃ t, runInputs s (List.replicate k tiedInputs) = .next t ∧
      t.block = .known { r with dly := r.dly - k }) ∧
    (∃ t, runInputs s (List.replicate (r.dly + 1) tiedInputs) = .next t ∧
      t.block = .known { phase := .emit, cnt := r.cnt, dly := 0 })

/-- 40_waveform_rom.md R78: whatever the collaborators answer, as long as no edge resets, what a block in EMIT hands over is the
table in cyclic order from its counter on, and 32 emits hand over each entry once. -/
def Obligations.EmitsReplayTheTableCyclically : Prop :=
  ∀ (s : State) (r : Regs), s.block = .known r → r.phase = .emit → InWidth s.cfg r →
    (∀ ins : List Inputs, NoReset ins →
      ∃ t r' n, runInputs s ins = .next t ∧ t.block = .known r' ∧ (r'.phase = .emit ∨ r'.phase = .wait) ∧
        t.handed = playback s.cfg r.cnt n ++ s.handed ∧ r'.cnt = (r.cnt + n) % 2 ^ s.cfg.params.cntW) ∧
    (wordsOf (playback s.cfg r.cnt 32)).Perm s.cfg.params.wave.toList ∧
    (∀ n, playback s.cfg r.cnt (n + 33) = .sample (romRead s.cfg (BitVec.ofNat 5 (r.cnt + n))) :: playback s.cfg r.cnt (n + 32))

/-- 42_pacing_counter.md R96: with every answer in the first cycle, one sample takes `DELAY_TICKS + 2` cycles, so `n` samples take
`n` times as many and leave the block in EMIT again. -/
def Obligations.TiedAnswersGiveTheFastestPacing : Prop :=
  ∀ (s : State) (r : Regs) (n : Nat), s.block = .known r → r.phase = .emit → r.cnt < 2 ^ s.cfg.params.cntW → r.dly = 0 →
    ∃ t, runInputs s (List.replicate (n * (s.cfg.params.delayTicks + 2)) tiedInputs) = .next t ∧
      t.block = .known { phase := .emit, cnt := (r.cnt + n) % 2 ^ s.cfg.params.cntW, dly := 0 } ∧
      t.handed = playback s.cfg r.cnt n ++ s.handed

/-- 70_reset_and_hazards.md R127: the block hangs in exactly three cases: unanswered in INIT, in EMIT, and in WAIT with DLY not 0;
in every other case of a legal phase the next edge leaves the phase or counts a tick. -/
def Obligations.HangsAreExactlyTheUnansweredWaits : Prop :=
  ∀ (s : State) (r : Regs), s.block = .known r →
    (∀ ins : List Inputs, NoReset ins →
      (r.phase = .init ∧ (∀ inp ∈ ins, inp.dacInitAck = false)) ∨ (r.phase = .emit ∧ (∀ inp ∈ ins, inp.dacAck = false)) ∨
        (r.phase = .wait ∧ r.dly ≠ 0 ∧ (∀ inp ∈ ins, inp.tick = false)) →
      ∃ t, runInputs s ins = .next t ∧ t.block = .known r) ∧
    (∀ inp : Inputs, inp.rst = false → LegalRegs s.cfg r → InWidth s.cfg r →
      (r.phase = .init → inp.dacInitAck = true) → (r.phase = .emit → inp.dacAck = true) →
      (r.phase = .wait → r.dly ≠ 0 → inp.tick = true) →
      ∃ t r', runInputs s [inp] = .next t ∧ t.block = .known r' ∧
        (r'.phase ≠ r.phase ∨ (r'.phase = .wait ∧ r'.dly < r.dly)))

/-- 70_reset_and_hazards.md R116, R126, 41_sequencer.md R88: from any legal launch state, in an environment that answers, samples are
handed over without end. -/
def Obligations.SamplesAreHandedOverWithoutEnd : Prop :=
  ∀ (c : Config) (start : Regs) (σ : Nat → Inputs), LegalRegs c start → InWidth c start → EnvironmentAnswers c start σ →
    ∀ n, ∃ k t, runInputs (launch c start []) (firstInputs σ k) = .next t ∧ n ≤ (wordsOf t.handed).length
end

