-- ==== Sys2Proof/Laws/State.lean ====
section
/-! SUPPORT. One lemma per field per update of the state record. -/

namespace Sys2Proof.Machine

open Sys2Proof

@[simp] theorem setRegs_cfg (s : State) (r : Regs) : (setRegs s r).cfg = s.cfg := rfl
@[simp] theorem setRegs_block (s : State) (r : Regs) : (setRegs s r).block = .known r := rfl
@[simp] theorem setRegs_dacData (s : State) (r : Regs) : (setRegs s r).dacData = s.dacData := rfl
@[simp] theorem setRegs_handed (s : State) (r : Regs) : (setRegs s r).handed = s.handed := rfl
@[simp] theorem setRegs_stimulus (s : State) (r : Regs) : (setRegs s r).stimulus = s.stimulus := rfl
@[simp] theorem setRegs_edge (s : State) (r : Regs) : (setRegs s r).edge = s.edge := rfl

@[simp] theorem loadResetValues_cfg (s : State) : (loadResetValues s).cfg = s.cfg := rfl
@[simp] theorem loadResetValues_block (s : State) : (loadResetValues s).block = .known Regs.reset := rfl
@[simp] theorem loadResetValues_dacData (s : State) : (loadResetValues s).dacData = s.dacData := rfl
@[simp] theorem loadResetValues_handed (s : State) : (loadResetValues s).handed = s.handed := rfl
@[simp] theorem loadResetValues_stimulus (s : State) : (loadResetValues s).stimulus = s.stimulus := rfl
@[simp] theorem loadResetValues_edge (s : State) : (loadResetValues s).edge = s.edge := rfl

@[simp] theorem handOver_cfg (s : State) (h : Handshake) : (handOver s h).cfg = s.cfg := rfl
@[simp] theorem handOver_block (s : State) (h : Handshake) : (handOver s h).block = s.block := rfl
@[simp] theorem handOver_dacData (s : State) (h : Handshake) : (handOver s h).dacData = s.dacData := rfl
@[simp] theorem handOver_handed (s : State) (h : Handshake) : (handOver s h).handed = h :: s.handed := rfl
@[simp] theorem handOver_stimulus (s : State) (h : Handshake) : (handOver s h).stimulus = s.stimulus := rfl
@[simp] theorem handOver_edge (s : State) (h : Handshake) : (handOver s h).edge = s.edge := rfl

@[simp] theorem driveData_cfg (s : State) (w : Word) : (driveData s w).cfg = s.cfg := rfl
@[simp] theorem driveData_block (s : State) (w : Word) : (driveData s w).block = s.block := rfl
@[simp] theorem driveData_dacData (s : State) (w : Word) : (driveData s w).dacData = some w := rfl
@[simp] theorem driveData_handed (s : State) (w : Word) : (driveData s w).handed = s.handed := rfl
@[simp] theorem driveData_stimulus (s : State) (w : Word) : (driveData s w).stimulus = s.stimulus := rfl
@[simp] theorem driveData_edge (s : State) (w : Word) : (driveData s w).edge = s.edge := rfl

@[simp] theorem pastEdge_cfg (s : State) : (pastEdge s).cfg = s.cfg := rfl
@[simp] theorem pastEdge_block (s : State) : (pastEdge s).block = s.block := rfl
@[simp] theorem pastEdge_dacData (s : State) : (pastEdge s).dacData = s.dacData := rfl
@[simp] theorem pastEdge_handed (s : State) : (pastEdge s).handed = s.handed := rfl
@[simp] theorem pastEdge_stimulus (s : State) : (pastEdge s).stimulus = s.stimulus.tail := rfl
@[simp] theorem pastEdge_edge (s : State) : (pastEdge s).edge = s.edge + 1 := rfl

@[simp] theorem powerOn_cfg (c : Config) (l : List Inputs) : (powerOn c l).cfg = c := rfl
@[simp] theorem powerOn_block (c : Config) (l : List Inputs) : (powerOn c l).block = .unspecified := rfl
@[simp] theorem powerOn_dacData (c : Config) (l : List Inputs) : (powerOn c l).dacData = none := rfl
@[simp] theorem powerOn_handed (c : Config) (l : List Inputs) : (powerOn c l).handed = [] := rfl
@[simp] theorem powerOn_stimulus (c : Config) (l : List Inputs) : (powerOn c l).stimulus = l := rfl
@[simp] theorem powerOn_edge (c : Config) (l : List Inputs) : (powerOn c l).edge = 0 := rfl

@[simp] theorem launch_cfg (c : Config) (r : Regs) (l : List Inputs) : (launch c r l).cfg = c := rfl
@[simp] theorem launch_block (c : Config) (r : Regs) (l : List Inputs) : (launch c r l).block = .known r := rfl
@[simp] theorem launch_dacData (c : Config) (r : Regs) (l : List Inputs) : (launch c r l).dacData = some (romRead c (idx r)) := rfl
@[simp] theorem launch_handed (c : Config) (r : Regs) (l : List Inputs) : (launch c r l).handed = [] := rfl
@[simp] theorem launch_stimulus (c : Config) (r : Regs) (l : List Inputs) : (launch c r l).stimulus = l := rfl
@[simp] theorem launch_edge (c : Config) (r : Regs) (l : List Inputs) : (launch c r l).edge = 0 := rfl

@[simp] theorem reset_cfg : State.reset.cfg = Config.device := rfl
@[simp] theorem reset_block : State.reset.block = .known Regs.reset := rfl
@[simp] theorem reset_handed : State.reset.handed = [] := rfl
@[simp] theorem reset_stimulus : State.reset.stimulus = [] := rfl
@[simp] theorem reset_edge : State.reset.edge = 0 := rfl
@[simp] theorem reset_dacData : State.reset.dacData = some (romRead Config.device (idx Regs.reset)) := rfl

@[simp] theorem regsReset_phase : Regs.reset.phase = .init := rfl
@[simp] theorem regsReset_cnt : Regs.reset.cnt = 0 := rfl
@[simp] theorem regsReset_dly : Regs.reset.dly = 0 := rfl

end Sys2Proof.Machine
end

