-- ==== Sys2Proof/Laws/Ops.lean ====
section
/-! SUPPORT. For each shared operation, once, everything it can do. -/

namespace Sys2Proof.Machine

open Sys2Proof

/-! ### Configurations -/

theorem legal_bounds (c : Config) :
    (12 ≤ c.params.dataW ∧ c.params.dataW ≤ 16) ∧ c.params.flagVal < 2 ^ c.params.flagW ∧
    (∀ a, c.params.flagField (romRead c a) = c.params.flagVal) ∧ 5 ≤ c.params.cntW ∧
    1 ≤ c.params.dlyW ∧ c.params.delayTicks < 2 ^ c.params.dlyW ∧ 1 ≤ c.params.cfgW ∧
    c.params.dacCfg < 2 ^ c.params.cfgW := by
  have h := c.legal
  unfold Params.violation at h
  split_ifs at h
  simp_all [romRead]

theorem cntW_ge (c : Config) : 5 ≤ c.params.cntW := (legal_bounds c).2.2.2.1

theorem dlyW_ge (c : Config) : 1 ≤ c.params.dlyW := (legal_bounds c).2.2.2.2.1

theorem delayTicks_lt (c : Config) : c.params.delayTicks < 2 ^ c.params.dlyW := (legal_bounds c).2.2.2.2.2.1

/-- The wrap of the counter keeps the index, since 32 divides `2^CNT_W` (42_pacing_counter.md R95). -/
theorem mod_pow_mod_32 (c : Config) (n : Nat) : n % 2 ^ c.params.cntW % 32 = n % 32 :=
  Nat.mod_mod_of_dvd n (pow_dvd_pow 2 (cntW_ge c))

/-! ### Reading the ROM -/

@[simp] theorem idx_toNat (r : Regs) : (idx r).toNat = r.cnt % 32 := by simp [idx]

/-- Two numbers equal modulo 32 give the same 5-bit address. -/
theorem ofNat5_congr {m n : Nat} (h : m % 32 = n % 32) : BitVec.ofNat 5 m = BitVec.ofNat 5 n := by
  apply BitVec.eq_of_toNat_eq; simpa using h

theorem romRead_mem (c : Config) (a : Addr) : romRead c a ∈ c.params.wave.toList := by
  unfold romRead; simp

theorem wave_getElem?_mod (c : Config) (n : Nat) :
    c.params.wave[n % 32]? = some (romRead c (BitVec.ofNat 5 n)) := by
  have h : n % 32 < 32 := Nat.mod_lt _ (by decide)
  simp [romRead, h]

/-! ### The counters -/

theorem countUp_lt (c : Config) (n : Nat) : countUp c n < 2 ^ c.params.cntW := Nat.mod_lt _ (by positivity)

theorem countUp_mod (c : Config) (n : Nat) : countUp c (n % 2 ^ c.params.cntW) = (n + 1) % 2 ^ c.params.cntW := by
  simp [countUp]

theorem countUp_max (c : Config) : countUp c (2 ^ c.params.cntW - 1) = 0 := by
  have h : 0 < 2 ^ c.params.cntW := by positivity
  simp [countUp, Nat.sub_add_cancel h]

/-- Where WAIT_TICK is selected the count does not wrap (42_pacing_counter.md R90). -/
theorem countDown_of_ne_zero (c : Config) {n : Nat} (h0 : n ≠ 0) (h : n < 2 ^ c.params.dlyW) : countDown c n = n - 1 := by
  unfold countDown
  have e : n + (2 ^ c.params.dlyW - 1) = (n - 1) + 2 ^ c.params.dlyW := by omega
  rw [e, Nat.add_mod_right, Nat.mod_eq_of_lt (by omega)]

theorem countDown_lt (c : Config) (n : Nat) : countDown c n < 2 ^ c.params.dlyW := Nat.mod_lt _ (by positivity)

/-! ### Reading the registers, and the outputs -/

@[simp] theorem withRegs_known {s : State} {r : Regs} (h : s.block = .known r) (f : Regs → State) :
    withRegs s f = .next (f r) := by simp [withRegs, h]

@[simp] theorem withRegs_unspecified {s : State} (h : s.block = .unspecified) (f : Regs → State) :
    withRegs s f = .fault .stateUnspecified := by simp [withRegs, h]

/-- A transition that reads a register answers a next state only from a block whose registers have a value. -/
theorem withRegs_next {s t : State} {f : Regs → State} (h : withRegs s f = .next t) :
    ∃ r, s.block = .known r ∧ t = f r := by
  unfold withRegs at h
  split at h
  · cases h
  · rename_i r hr; cases h; exact ⟨r, hr, rfl⟩

theorem observe_known {s : State} {r : Regs} (h : s.block = .known r) : observe s = .next (outputs s.cfg r) := by
  simp [observe, h]

theorem observe_next {s : State} {o : Outputs} (h : observe s = .next o) : ∃ r, s.block = .known r ∧ o = outputs s.cfg r := by
  unfold observe at h
  split at h
  · cases h
  · rename_i r hr; cases h; exact ⟨r, hr, rfl⟩

theorem build_of_legal {p : Params} (h : p.violation = none) (l : List Inputs) : build p l = .next (powerOn ⟨p, h⟩ l) := by
  unfold build; split
  · rfl
  · rename_i v hv; rw [h] at hv; cases hv

theorem build_of_violation {p : Params} {v : Violation} (h : p.violation = some v) (l : List Inputs) :
    build p l = .refused (.illegalConfiguration v) := by
  unfold build; split
  · rename_i hv; rw [h] at hv; cases hv
  · rename_i w hv; rw [h] at hv; cases hv; rfl

/-! ### Around an edge -/

theorem nextInputs_nil {s : State} (h : s.stimulus = []) : nextInputs s = Config.freeInputs s.edge := by simp [nextInputs, h]

/-- If the cycle after an edge settles, the registers have a value, and `dac_data` shows the word at their index. -/
theorem settle_next {s t : State} (h : settle s = .next t) :
    ∃ r, s.block = .known r ∧ t = driveData (pastEdge s) (romRead s.cfg (idx r)) := by
  unfold settle at h
  split at h
  · cases h
  · rename_i r hr; cases h; exact ⟨r, hr, rfl⟩

theorem intoNextCycle_next {o : Host.Outcome State Fault Refusal} {t : State} (h : intoNextCycle o = .next t) :
    ∃ u, o = .next u ∧ settle u = .next t := by
  cases o with
  | next u => exact ⟨u, rfl, h⟩
  | fault f => cases h
  | refused x => cases h

@[simp] theorem dlyZ_delayWithZ (z : Bool) (n : Nat) (ph : Phase) (cnt : Nat) : dlyZ ⟨ph, cnt, delayWithZ z n⟩ = z := by
  cases z
  · unfold dlyZ delayWithZ; split <;> simp_all; split <;> simp_all
  · rfl

end Sys2Proof.Machine
end

