-- ==== Sys2Proof/Laws/PerInstr.lean ====
section
/-! SUPPORT. A family of statements about every instruction as syntax, one lemma per constructor. -/

namespace Sys2Proof.Laws

open Sys2Proof

/-- An instruction is well formed, its word fits its format, and only the ROM read has the address format. -/
def EncodedWord.Statement (i : Instr) : Prop :=
  i.wellFormed = true ∧ i.format.fits (encode i) = true ∧ (i.format = .romAddr ↔ ∃ a, i = .romrd a)

theorem EncodedWord.reset : EncodedWord.Statement .reset := by simp [EncodedWord.Statement]; decide
theorem EncodedWord.initHold : EncodedWord.Statement .initHold := by simp [EncodedWord.Statement]; decide
theorem EncodedWord.initDone : EncodedWord.Statement .initDone := by simp [EncodedWord.Statement]; decide
theorem EncodedWord.emitHold : EncodedWord.Statement .emitHold := by simp [EncodedWord.Statement]; decide
theorem EncodedWord.emitDone : EncodedWord.Statement .emitDone := by simp [EncodedWord.Statement]; decide
theorem EncodedWord.waitDone : EncodedWord.Statement .waitDone := by simp [EncodedWord.Statement]; decide
theorem EncodedWord.waitTick : EncodedWord.Statement .waitTick := by simp [EncodedWord.Statement]; decide
theorem EncodedWord.waitIdle : EncodedWord.Statement .waitIdle := by simp [EncodedWord.Statement]; decide
theorem EncodedWord.illegalPhase : EncodedWord.Statement .illegalPhase := by simp [EncodedWord.Statement]; decide
theorem EncodedWord.romrd (addr : Addr) : EncodedWord.Statement (.romrd addr) := by
  refine ⟨rfl, ?_, by simp [Instr.format]⟩
  exact decide_eq_true addr.isLt

end Sys2Proof.Laws
end

