-- ==== Sys2Proof/Laws/Step.lean ====
section
/-! SUPPORT. What an edge does to the registers as one function, which transition it selects, what a step answers, and how
runs over inputs unfold. -/

namespace Sys2Proof.Machine

open Sys2Proof

/-! ### Selection (30_encoding.md R65) -/

/-- The transition map read by fields instead of by rows. -/
def pick (rst : Bool) (ph : Phase) (ia da tk dz : Bool) : Instr :=
  if rst then .reset
  else match ph with
    | .init => if ia then .initDone else .initHold
    | .emit => if da then .emitDone else .emitHold
    | .wait => if dz then .waitDone else if tk then .waitTick else .waitIdle
    | .illegal => .illegalPhase

theorem decodeCV_fields (rst : Bool) (ph : Phase) (ia da tk dz : Bool) :
    decodeCV (BitVec.ofBool rst ++ phaseBits ph ++ BitVec.ofBool ia ++ BitVec.ofBool da ++ BitVec.ofBool tk
      ++ BitVec.ofBool dz) = pick rst ph ia da tk dz := by
  revert rst ia da tk dz; cases ph <;> decide

/-- What the control vector selects, by the phase and the inputs. -/
theorem decodeCV_controlVector (inp : Inputs) (r : Regs) :
    decodeCV (controlVector inp r) = pick inp.rst r.phase inp.dacInitAck inp.dacAck inp.tick (r.dly == 0) :=
  decodeCV_fields ..

theorem selected_known {s : State} {r : Regs} (h : s.block = .known r) :
    selected s = some (pick (nextInputs s).rst r.phase (nextInputs s).dacInitAck (nextInputs s).dacAck (nextInputs s).tick
      (r.dly == 0)) := by
  simp [selected, h, decodeCV_controlVector]

theorem selected_unspecified {s : State} (h : s.block = .unspecified) :
    selected s = if (nextInputs s).rst then some .reset else none := by
  simp [selected, h]

@[simp] theorem nextInputs_cons (s : State) (inp : Inputs) (l : List Inputs) :
    nextInputs { s with stimulus := inp :: l } = inp := rfl

/-! ### The registers after an edge -/

/-- The registers after an edge, as a function of the configuration, the inputs and the registers. -/
def nextRegs (c : Config) (inp : Inputs) (r : Regs) : Regs :=
  if inp.rst then Regs.reset
  else match r.phase with
    | .init => if inp.dacInitAck then { r with phase := .emit } else r
    | .emit => if inp.dacAck then { phase := .wait, cnt := countUp c r.cnt, dly := delayReload c } else r
    | .wait =>
      if r.dly == 0 then { r with phase := .emit } else if inp.tick then { r with dly := countDown c r.dly } else r
    | .illegal => Regs.reset

/-- What an edge hands over. -/
def newsOf (c : Config) (inp : Inputs) (r : Regs) : List Handshake :=
  if inp.rst then []
  else match r.phase with
    | .init => if inp.dacInitAck then [.init] else []
    | .emit => if inp.dacAck then [.sample (romRead c (idx r))] else []
    | .wait => []
    | .illegal => []

/-- A step of a block whose registers have a value always answers a next state, and this one. -/
theorem step_known {s : State} {r : Regs} (h : s.block = .known r) :
    step s = .next
      { cfg := s.cfg
        block := .known (nextRegs s.cfg (nextInputs s) r)
        dacData := some (romRead s.cfg (idx (nextRegs s.cfg (nextInputs s) r)))
        handed := newsOf s.cfg (nextInputs s) r ++ s.handed
        stimulus := s.stimulus.tail
        edge := s.edge + 1 } := by
  unfold step nextRegs newsOf
  rw [selected_known h]
  generalize nextInputs s = inp
  obtain ⟨rst, ia, da, tk⟩ := inp
  obtain ⟨ph, cnt, dly⟩ := r
  cases rst <;> cases ph <;> cases ia <;> cases da <;> cases tk <;> cases hz : dly == 0 <;>
    simp [pick, exec, execReset, execInitHold, execInitDone, execEmitHold, execEmitDone, execWaitDone, execWaitTick, execWaitIdle,
      execIllegalPhase, execRomrd, withRegs, h, intoNextCycle, settle, setRegs, loadResetValues, handOver, driveData, pastEdge]

/-- A step before the first reset: a fault, or the reset values. -/
theorem step_unspecified {s : State} (h : s.block = .unspecified) :
    step s = if (nextInputs s).rst then .next
      { s with block := .known Regs.reset, dacData := some (romRead s.cfg (idx Regs.reset)), stimulus := s.stimulus.tail, edge := s.edge + 1 }
      else .fault .stateUnspecified := by
  unfold step
  rw [selected_unspecified h]
  cases (nextInputs s).rst <;>
    simp [exec, execReset, intoNextCycle, settle, setRegs, loadResetValues, execRomrd, driveData, pastEdge]

theorem step_unspecified_reset {s : State} (h : s.block = .unspecified) (hr : (nextInputs s).rst = true) :
    step s = .next { s with block := .known Regs.reset, dacData := some (romRead s.cfg (idx Regs.reset)), stimulus := s.stimulus.tail, edge := s.edge + 1 } := by
  rw [step_unspecified h, if_pos hr]

theorem step_unspecified_fault {s : State} (h : s.block = .unspecified) (hr : (nextInputs s).rst = false) :
    step s = .fault .stateUnspecified := by
  rw [step_unspecified h, if_neg (by simp [hr])]

/-- If a step answers a next state, it is one of these two. -/
theorem step_next {s t : State} (h : step s = .next t) :
    (∃ r, s.block = .known r ∧ t =
      { cfg := s.cfg
        block := .known (nextRegs s.cfg (nextInputs s) r)
        dacData := some (romRead s.cfg (idx (nextRegs s.cfg (nextInputs s) r)))
        handed := newsOf s.cfg (nextInputs s) r ++ s.handed
        stimulus := s.stimulus.tail
        edge := s.edge + 1 }) ∨
    (s.block = .unspecified ∧ (nextInputs s).rst = true ∧ t =
      { s with block := .known Regs.reset, dacData := some (romRead s.cfg (idx Regs.reset)), stimulus := s.stimulus.tail, edge := s.edge + 1 }) := by
  cases hb : s.block with
  | known r =>
    rw [step_known hb] at h; cases h
    exact .inl ⟨r, rfl, rfl⟩
  | unspecified =>
    rw [step_unspecified hb] at h
    split at h
    · rename_i hr; cases h; exact .inr ⟨rfl, hr, rfl⟩
    · cases h

/-! ### Runs over inputs -/

@[simp] theorem runInputs_nil (s : State) : runInputs s [] = .next s := rfl

theorem run_next (M : Host.Core) {s t : M.State} (k : Nat) (h : M.step s = .next t) : M.run (k + 1) s = M.run k t := by
  rw [Host.Core.run, h]

theorem run_fault (M : Host.Core) {s : M.State} {f : M.Fault} (k : Nat) (h : M.step s = .fault f) :
    M.run (k + 1) s = .fault f := by
  rw [Host.Core.run, h]

/-- A run takes its first edge, and goes on from there. -/
theorem runInputs_cons (s : State) (inp : Inputs) (rest : List Inputs) :
    runInputs s (inp :: rest) =
      match step { s with stimulus := inp :: s.stimulus } with
      | .next t => runInputs t rest
      | .fault f => .fault f
      | .refused x => .refused x := by
  obtain ⟨cfg, block, dacData, handed, stimulus, edge⟩ := s
  cases block with
  | known r =>
    refine (run_next Sys2Proof.core rest.length (step_known rfl)).trans ?_
    rw [step_known rfl]; rfl
  | unspecified =>
    obtain ⟨rst, _, _, _⟩ := inp
    cases rst with
    | false =>
      refine (run_fault Sys2Proof.core rest.length (step_unspecified_fault rfl rfl)).trans ?_
      rw [step_unspecified_fault rfl rfl]; rfl
    | true =>
      refine (run_next Sys2Proof.core rest.length (step_unspecified_reset rfl rfl)).trans ?_
      rw [step_unspecified_reset rfl rfl]; rfl

/-- The state after one edge of a block whose registers have a value. -/
def afterEdge (s : State) (inp : Inputs) (r : Regs) : State where
  cfg := s.cfg
  block := .known (nextRegs s.cfg inp r)
  dacData := some (romRead s.cfg (idx (nextRegs s.cfg inp r)))
  handed := newsOf s.cfg inp r ++ s.handed
  stimulus := s.stimulus
  edge := s.edge + 1

@[simp] theorem afterEdge_cfg (s : State) (inp : Inputs) (r : Regs) : (afterEdge s inp r).cfg = s.cfg := rfl
@[simp] theorem afterEdge_block (s : State) (inp : Inputs) (r : Regs) :
    (afterEdge s inp r).block = .known (nextRegs s.cfg inp r) := rfl
@[simp] theorem afterEdge_handed (s : State) (inp : Inputs) (r : Regs) :
    (afterEdge s inp r).handed = newsOf s.cfg inp r ++ s.handed := rfl
@[simp] theorem afterEdge_dacData (s : State) (inp : Inputs) (r : Regs) :
    (afterEdge s inp r).dacData = some (romRead s.cfg (idx (nextRegs s.cfg inp r))) := rfl
@[simp] theorem afterEdge_stimulus (s : State) (inp : Inputs) (r : Regs) : (afterEdge s inp r).stimulus = s.stimulus := rfl

theorem runInputs_known_cons {s : State} {r : Regs} (h : s.block = .known r) (inp : Inputs) (rest : List Inputs) :
    runInputs s (inp :: rest) = runInputs (afterEdge s inp r) rest := by
  rw [runInputs_cons, step_known (s := { s with stimulus := inp :: s.stimulus }) h]; rfl

/-- A run over inputs joined is a run over the first, then over the second. -/
theorem runInputs_append {s t : State} {l : List Inputs} (h : runInputs s l = .next t) (m : List Inputs) :
    runInputs s (l ++ m) = runInputs t m := by
  induction l generalizing s with
  | nil => cases h; rfl
  | cons inp rest ih =>
    rw [runInputs_cons] at h
    rw [List.cons_append, runInputs_cons]
    revert h
    generalize step { s with stimulus := inp :: s.stimulus } = o
    cases o <;> intro h
    · exact ih h
    · cases h
    · cases h

/-- A block whose registers have a value never stops. -/
theorem runInputs_known_completes {s : State} {r : Regs} (h : s.block = .known r) (l : List Inputs) :
    ∃ t r', runInputs s l = .next t ∧ t.block = .known r' ∧ t.cfg = s.cfg ∧ t.stimulus = s.stimulus := by
  induction l generalizing s r with
  | nil => exact ⟨s, r, rfl, h, rfl, rfl⟩
  | cons inp rest ih =>
    rw [runInputs_known_cons h]
    exact ih (s := afterEdge s inp r) rfl

end Sys2Proof.Machine
end

