-- ==== Sys2Proof/Laws/Runs.lean ====
section
/-! SUPPORT. Small laws of the play-back of the table, of tick counting, and of runs that stand still. -/

namespace Sys2Proof.Machine

open Sys2Proof

/-! ### Play-back -/

@[simp] theorem playback_zero (c : Config) (k : Nat) : playback c k 0 = [] := rfl

theorem playback_succ (c : Config) (k n : Nat) :
    playback c k (n + 1) = .sample (romRead c (BitVec.ofNat 5 (k + n))) :: playback c k n := rfl

/-- Play-back by its oldest word. -/
theorem playback_succ_oldest (c : Config) (k n : Nat) :
    playback c k (n + 1) = playback c (k + 1) n ++ [.sample (romRead c (BitVec.ofNat 5 k))] := by
  induction n with
  | zero => simp [playback_succ]
  | succ n ih => rw [playback_succ, ih, playback_succ]; simp; congr 2; omega

/-- Play-back depends on the start modulo 32 only. -/
theorem playback_congr (c : Config) {k m : Nat} (n : Nat) (h : k % 32 = m % 32) : playback c k n = playback c m n := by
  induction n with
  | zero => rfl
  | succ n ih => rw [playback_succ, playback_succ, ih]; congr 3; exact ofNat5_congr (by omega)

@[simp] theorem wordsOf_nil : wordsOf [] = [] := rfl
@[simp] theorem wordsOf_init (h : List Handshake) : wordsOf (.init :: h) = wordsOf h := rfl
@[simp] theorem wordsOf_sample (w : Word) (h : List Handshake) : wordsOf (.sample w :: h) = w :: wordsOf h := rfl
@[simp] theorem wordsOf_append (h k : List Handshake) : wordsOf (h ++ k) = wordsOf h ++ wordsOf k := by simp [wordsOf]

/-! ### Counting ticks -/

@[simp] theorem tickCount_nil : tickCount [] = 0 := rfl

theorem tickCount_cons (inp : Inputs) (l : List Inputs) :
    tickCount (inp :: l) = tickCount l + (if inp.tick then 1 else 0) := by
  cases h : inp.tick <;> simp [tickCount, h]

theorem tickCount_le (l : List Inputs) : tickCount l ≤ l.length := List.length_filter_le _ _

@[simp] theorem tickCount_tied (k : Nat) : tickCount (List.replicate k tiedInputs) = k := by simp [tickCount, tiedInputs]

theorem noReset_tied (k : Nat) : NoReset (List.replicate k tiedInputs) := by
  intro inp h; rw [List.eq_of_mem_replicate h]; rfl

/-! ### Standing still -/

/-- Registers that every given input leaves alone, handing nothing over, stay for the whole run. -/
theorem runInputs_stays (P : Inputs → Prop) {s : State} {r : Regs} (h : s.block = .known r)
    (still : ∀ inp, P inp → nextRegs s.cfg inp r = r ∧ newsOf s.cfg inp r = []) (l : List Inputs) (hl : ∀ inp ∈ l, P inp) :
    ∃ t, runInputs s l = .next t ∧ t.block = .known r ∧ t.handed = s.handed ∧ t.cfg = s.cfg := by
  induction l generalizing s with
  | nil => exact ⟨s, rfl, h, rfl, rfl⟩
  | cons inp rest ih =>
    obtain ⟨e1, e2⟩ := still inp (hl inp (by simp))
    rw [runInputs_known_cons h]
    obtain ⟨t, a, b, c, d⟩ := ih (s := afterEdge s inp r) (by simp [e1]) (by simpa using still) (fun x hx => hl x (by simp [hx]))
    exact ⟨t, a, b, by simpa [e2] using c, by simpa using d⟩

end Sys2Proof.Machine
end

