-- ==== Sys2Proof/Tests/Slice0.lean ====
section
/-! SUPPORT. Tests of the model on the vectors of spec/95_test_vectors.md (test configuration TC, which is not the
device's), and for every obligation a witness that its hypotheses can be met. Expected values are the spec's. -/

namespace Sys2Proof.Tests

open Sys2Proof Sys2Proof.Machine

/-! ## The test configuration (95_test_vectors.md section 1) -/

/-- The fixture table `T_ex`. -/
def tableEx : Vector Word 32 :=
  #v[0x8000, 0x98F0, 0xB0F0, 0xC710, 0xDA70, 0xEA60, 0xF630, 0xFD80, 0xFFF0, 0xFD80, 0xF630, 0xEA60, 0xDA70, 0xC710, 0xB0F0, 0x98F0,
     0x8000, 0x6710, 0x4F10, 0x38F0, 0x2590, 0x15A0, 0x09D0, 0x0280, 0x0010, 0x0280, 0x09D0, 0x15A0, 0x2590, 0x38F0, 0x4F10, 0x6710]

/-- TC, with the counter width and the delay as arguments. -/
def tcParams (cntW delayTicks : Nat) : Params where
  dataW := 12
  flagVal := 0
  wave := tableEx
  cntW := cntW
  dlyW := 8
  delayTicks := delayTicks
  cfgW := 16
  dacCfg := 0x00A5

def tc : Config := ⟨tcParams 8 2, by decide⟩
def tc0 : Config := ⟨tcParams 8 0, by decide⟩
def tcSlow : Config := ⟨tcParams 8 255, by decide⟩
def tcNarrow : Config := ⟨tcParams 5 2, by decide⟩
def tcWide : Config := ⟨tcParams 32 2, by decide⟩

/-- Inputs `rst ia da tk`, and a launched state whose next edge samples them. -/
def ins (rst ia da tk : Bool) : Inputs := ⟨rst, ia, da, tk⟩
def at_ (c : Config) (ph : Phase) (cnt dly : Nat) (inp : Inputs) : State := launch c ⟨ph, cnt, dly⟩ [inp]

/-- The block after an outcome, and what has been handed over. -/
def blockOf (o : Host.Outcome State Fault Refusal) : Option BlockState :=
  match o with
  | .next t => some t.block
  | _ => none
def handedOf (o : Host.Outcome State Fault Refusal) : Option (List Handshake) :=
  match o with
  | .next t => some t.handed
  | _ => none
def isNext (o : Host.Outcome State Fault Refusal) : Bool :=
  match o with
  | .next _ => true
  | _ => false
def regs (ph : Phase) (cnt dly : Nat) : Option BlockState := some (.known ⟨ph, cnt, dly⟩)

/-! ## Well-formedness: each check refuses an ill-formed term (95_test_vectors.md section 3.5) -/

theorem test_wf_data_width_11 : ({ tcParams 8 2 with dataW := 11 } : Params).violation = some .dataWidth := by decide
theorem test_wf_data_width_17 : ({ tcParams 8 2 with dataW := 17 } : Params).violation = some .dataWidth := by decide
theorem test_wf_flag_value : ({ tcParams 8 2 with flagVal := 16 } : Params).violation = some .flagValue := by decide
theorem test_wf_wave_flags : ({ tcParams 8 2 with wave := tableEx.set 5 0xEA61 } : Params).violation = some .waveFlags := by decide
theorem test_wf_counter_width : (tcParams 4 2).violation = some .counterWidth := by decide
theorem test_wf_delay_width : ({ tcParams 8 0 with dlyW := 0 } : Params).violation = some .delayWidth := by decide
theorem test_wf_delay_ticks : (tcParams 8 256).violation = some .delayTicks := by decide
theorem test_wf_config_width : ({ tcParams 8 2 with cfgW := 0, dacCfg := 0 } : Params).violation = some .configWidth := by decide
theorem test_wf_config_value : ({ tcParams 8 2 with cfgW := 7 } : Params).violation = some .configValue := by decide
theorem test_wf_word_cv : Format.cv7.fits 128 = false := by decide
theorem test_wf_word_addr : Format.romAddr.fits 32 = false := by decide

/-! ## Decoding: words written out from the map of 30_encoding.md R65, and the grid of 95_test_vectors.md section 3.1 -/

theorem test_decode_reset : decodeTableWord 8 0b1000000 = some .reset := by decide
theorem test_decode_initHold : decodeTableWord 8 0b0000001 = some .initHold := by decide
theorem test_decode_initDone : decodeTableWord 8 0b0001001 = some .initDone := by decide
theorem test_decode_emitHold : decodeTableWord 8 0b0011011 = some .emitHold := by decide
theorem test_decode_emitDone : decodeTableWord 8 0b0010101 = some .emitDone := by decide
theorem test_decode_waitDone : decodeTableWord 8 0b0101101 = some .waitDone := by decide
theorem test_decode_waitTick : decodeTableWord 8 0b0101110 = some .waitTick := by decide
theorem test_decode_waitIdle : decodeTableWord 8 0b0101100 = some .waitIdle := by decide
theorem test_decode_illegalPhase : decodeTableWord 8 0b0110000 = some .illegalPhase := by decide
theorem test_decode_romrd : decodeTableWord 5 0b11111 = some (.romrd 31) := by decide
theorem test_decode_too_wide : decodeTableWord 8 0b10000000 = none := by decide

/-- Rows 0x20 and 0x28 of the grid: WI WD WT WD WI WD WT WD. -/
theorem test_decode_grid_wait :
    (List.range 8).map (fun k => decodeCV (BitVec.ofNat 7 (0x20 + k))) =
      [.waitIdle, .waitDone, .waitTick, .waitDone, .waitIdle, .waitDone, .waitTick, .waitDone] := by decide

/-! ## The ROM read (95_test_vectors.md section 3.2) -/

theorem test_romrd_maximum_code : (romRead tc 8, idx ⟨.emit, 40, 0⟩) = (0xFFF0, 8) := by decide
theorem test_romrd_at_counter_maximum : romRead tc (idx ⟨.emit, 255, 0⟩) = 0x6710 := by decide
theorem test_table_shape : oddSymmetric tc 2048 0 = true := by decide

/-! ## The sequencer (95_test_vectors.md section 3.3) -/

theorem test_S1_power_on_reset : blockOf (step (powerOn tc [ins true false true false])) = regs .init 0 0 := by decide
theorem test_S3_reset_over_ack :
    (blockOf (step (at_ tc .emit 9 0 (ins true false true false))), handedOf (step (at_ tc .emit 9 0 (ins true false true false))))
      = (regs .init 0 0, some []) := by decide
theorem test_S6_init_hold : blockOf (step (at_ tc .init 0 0 (ins false false true true))) = regs .init 0 0 := by decide
theorem test_S7_init_done : blockOf (step (at_ tc .init 0 0 (ins false true false false))) = regs .emit 0 0 := by decide
theorem test_S8_emit_hold : blockOf (step (at_ tc .emit 254 0 (ins false true false true))) = regs .emit 254 0 := by decide
theorem test_S10_emit_done_wraps :
    (blockOf (step (at_ tc .emit 255 0 (ins false false true false))), handedOf (step (at_ tc .emit 255 0 (ins false false true false))))
      = (regs .wait 0 2, some [.sample 0x6710]) := by decide
theorem test_S12_emit_done_reloads : blockOf (step (at_ tc .emit 4 3 (ins false false true false))) = regs .wait 5 2 := by decide
theorem test_S13_illegal_phase : blockOf (step (at_ tc .illegal 7 3 (ins false false false false))) = regs .init 0 0 := by decide
theorem test_unspecified_faults : isNext (step (powerOn tc [ins false true true true])) = false := by decide

/-! ## The pacing counter (95_test_vectors.md sections 3.4 and 3.5) -/

theorem test_W2_last_tick : blockOf (step (at_ tc .wait 1 1 (ins false true true true))) = regs .wait 1 0 := by decide
theorem test_W3_tick_dropped : blockOf (step (at_ tc .wait 1 0 (ins false true true true))) = regs .emit 1 0 := by decide
theorem test_W5_wait_idle : blockOf (step (at_ tc .wait 255 2 (ins false true true false))) = regs .wait 255 2 := by decide
theorem test_W7_largest_delay : blockOf (step (at_ tcSlow .wait 0 255 (ins false false false true))) = regs .wait 0 254 := by decide
theorem test_A1_narrowest_counter : countUp tcNarrow 31 = 0 := by decide
theorem test_A3_wide_counter : (countUp tcWide 0xFFFFFFFE, countUp tcWide 0xFFFFFFFF) = (0xFFFFFFFF, 0) := by decide

/-! ## Stimulus notation (30_encoding.md R71): the first lines of programs P1 and P3 -/

theorem test_stimulus_P1 :
    expandStimulus [.tie .dacInitAck, .tie .dacAck, .tie .tick, .reset, .times 2 ⟨some false, none, none, none⟩] =
      [ins true true true true, ins false true true true, ins false true true true] := by decide
theorem test_stimulus_P3 :
    expandStimulus [.tie .dacInitAck, .line ⟨some false, none, some false, some true⟩, .line ⟨some false, none, some true, some false⟩] =
      [ins false true false true, ins false true true false] := by decide

/-- The first line of the trace of P3. -/
theorem test_trace_P3 :
    (traceRun 1 (at_ tc .emit 254 0 (ins false true false true))).map (fun l => (l.cv, l.transition, l.out.map Outputs.dacData)) =
      [(some 0x1B, .emitHold, some 0x4F10)] := by decide

/-! ## Placing a table word after reset, of the unknown device -/

theorem test_placed_waitTick :
    (selected (State.reset.withFetchWord 8 0x22), isNext (step (State.reset.withFetchWord 8 0x22))) = (some .waitTick, true) := by decide
theorem test_placed_romrd : isNext (step (State.reset.withFetchWord 5 0x1F)) = true := by decide

/-! ## Witnesses: the hypotheses of each obligation can be met -/

theorem witness_IllegalParametersAreRefused :
    (tcParams 8 2).violation = none ∧ (tcParams 4 2).violation = some .counterWidth ∧
    isNext (step (at_ tc .init 0 0 tiedInputs)) = true := by decide

theorem witness_DecodingAnEncodedInstructionGivesItBack : (Instr.romrd 31).wellFormed = true := rfl

/-- A block in EMIT (not INIT, not WAIT), in INIT (not EMIT), at the end of WAIT; two inputs with `rst = 1`. -/
theorem witness_InputsOutsideTheirPhaseAreIgnored :
    (at_ tc .emit 255 0 tiedInputs).block = .known ⟨.emit, 255, 0⟩ ∧ Phase.emit ≠ .init ∧ Phase.emit ≠ .wait ∧
    (at_ tc .init 0 0 tiedInputs).block = .known ⟨.init, 0, 0⟩ ∧ Phase.init ≠ .emit ∧
    (at_ tc .wait 1 0 tiedInputs).block = .known ⟨.wait, 1, 0⟩ ∧ ¬ (Phase.wait = .wait ∧ (0 : Nat) ≠ 0) ∧
    (ins true true false false).rst = true ∧ (ins true false true true).rst = true := by decide

theorem witness_IndexIsTheCounterModulo32 : 255 < 2 ^ tc.params.cntW := by decide

theorem witness_OutputsFollowTheStateAlone :
    (at_ tc .illegal 7 3 tiedInputs).block = .known ⟨.illegal, 7, 3⟩ ∧
    (at_ tc .illegal 7 3 tiedInputs).cfg = (at_ tc .illegal 7 3 (ins true false false false)).cfg ∧
    (at_ tc .illegal 7 3 tiedInputs).block = (at_ tc .illegal 7 3 (ins true false false false)).block := by decide

theorem witness_ResetEdgeLeavesTheResetValues :
    (nextInputs (at_ tc .wait 5 1 (ins true false false false))).rst = true ∧
    (nextInputs (powerOn tc [ins true false false false])).rst = true := by decide

theorem witness_NothingIsReadBeforeTheFirstReset :
    (powerOn tc [ins false false false false]).block = .unspecified ∧ (nextInputs (powerOn tc [ins false false false false])).rst = false ∧
    (powerOn tc [ins true false false false]).block = .unspecified ∧ (nextInputs (powerOn tc [ins true false false false])).rst = true := by
  decide

theorem witness_ResetLoadsTheResetValues :
    [ins true true true true] ≠ [] ∧ (∀ inp ∈ [ins true true true true, ins true false false false], inp.rst = true) ∧
    (at_ tc .wait 5 1 tiedInputs).block = .known ⟨.wait, 5, 1⟩ := by
  refine ⟨by decide, ?_, by decide⟩
  simp [ins]

/-! Each transition: registers with a value, its selection, a run of inputs that its last clause speaks of. -/

theorem witness_InitHoldKeepsTheState :
    (at_ tc .init 0 0 (ins false false true true)).block = .known ⟨.init, 0, 0⟩ ∧
    selected (at_ tc .init 0 0 (ins false false true true)) = some .initHold ∧
    NoReset [ins false false true true, ins false false false false] ∧
    (∀ inp ∈ [ins false false true true, ins false false false false], inp.dacInitAck = false) := by
  refine ⟨rfl, by decide, by simp [NoReset, ins], by simp [ins]⟩

/-- INIT_DONE from INIT; RESET and ILLEGAL_PHASE into INIT from elsewhere. -/
theorem witness_InitDoneEntersEmit :
    (at_ tc .init 0 0 (ins false true true true)).block = .known ⟨.init, 0, 0⟩ ∧
    selected (at_ tc .init 0 0 (ins false true true true)) = some .initDone ∧
    blockOf (step (at_ tc .wait 5 1 (ins true false false false))) = regs .init 0 0 ∧
    blockOf (step (at_ tc .illegal 7 3 (ins false false false false))) = regs .init 0 0 := by
  refine ⟨rfl, by decide, by decide, by decide⟩

theorem witness_EmitHoldKeepsTheState :
    (at_ tc .emit 254 0 (ins false true false true)).block = .known ⟨.emit, 254, 0⟩ ∧
    selected (at_ tc .emit 254 0 (ins false true false true)) = some .emitHold ∧
    NoReset [ins false true false true] ∧ (∀ inp ∈ [ins false true false true], inp.dacAck = false) := by
  refine ⟨rfl, by decide, by simp [NoReset, ins], by simp [ins]⟩

/-- EMIT_DONE at the largest counter, and with no delay. -/
theorem witness_EmitDoneHandsOverThenCountsThenWaits :
    (at_ tc .emit 255 0 tiedInputs).block = .known ⟨.emit, 255, 0⟩ ∧ 255 = 2 ^ tc.params.cntW - 1 ∧
    blockOf (exec .emitDone (at_ tc .emit 255 0 tiedInputs)) = regs .wait 0 2 ∧
    tc0.params.delayTicks = 0 ∧ selected (at_ tc0 .emit 0 0 tiedInputs) = some .emitDone := by
  refine ⟨rfl, by decide, by decide, by decide, by decide⟩

theorem witness_IllegalPhaseRecoversAsResetDoes :
    (at_ tc .illegal 7 3 tiedInputs).block = .known ⟨.illegal, 7, 3⟩ ∧
    selected (at_ tc .illegal 7 3 tiedInputs) = some .illegalPhase := by
  refine ⟨rfl, by decide⟩

theorem witness_WaitDoneEntersEmit :
    (at_ tc .wait 1 0 tiedInputs).block = .known ⟨.wait, 1, 0⟩ ∧ selected (at_ tc .wait 1 0 tiedInputs) = some .waitDone ∧
    tc0.params.delayTicks = 0 ∧ (at_ tc0 .emit 0 0 tiedInputs).block = .known ⟨.emit, 0, 0⟩ ∧
    selected (at_ tc0 .emit 0 0 tiedInputs) = some .emitDone := by
  refine ⟨rfl, by decide, by decide, rfl, by decide⟩

/-- Unticked inputs in WAIT; a step out of WAIT with DLY not 0. -/
theorem witness_WaitIdleKeepsTheState :
    (at_ tc .wait 255 2 (ins false true true false)).block = .known ⟨.wait, 255, 2⟩ ∧
    selected (at_ tc .wait 255 2 (ins false true true false)) = some .waitIdle ∧
    NoReset [ins false true true false] ∧ (∀ inp ∈ [ins false true true false], inp.tick = false) ∧
    blockOf (step (at_ tc .wait 5 1 (ins true false false false))) = regs .init 0 0 := by
  refine ⟨rfl, by decide, by simp [NoReset, ins], by simp [ins], by decide⟩

theorem witness_RomReadDrivesTheSampleOutput :
    blockOf (step (at_ tc .emit 255 0 tiedInputs)) = regs .wait 0 2 ∧
    blockOf (step (at_ tc .init 0 0 quietInputs)) = regs .init 0 0 := by decide

theorem witness_StepRunsTheSelectedTransition :
    (at_ tc .wait 1 1 tiedInputs).block = .known ⟨.wait, 1, 1⟩ := rfl

theorem witness_PhasesFollowTheGraph :
    selected (at_ tc .wait 1 2 tiedInputs) = some .waitTick ∧ blockOf (step (at_ tc .wait 1 2 tiedInputs)) = regs .wait 1 1 := by
  decide

theorem witness_EveryStepSettlesTheDataPort :
    isNext (step (at_ tc .emit 255 0 tiedInputs)) = true ∧ isNext (step (powerOn tc [ins true false false false])) = true := by
  decide

/-- DLY at both ends of its range, and as many ticked inputs as the smallest one asks for. -/
theorem witness_WaitTickCountsOneTick :
    255 < 2 ^ tcSlow.params.dlyW ∧ (255 : Nat) ≠ 0 ∧ (at_ tcSlow .wait 0 255 tiedInputs).block = .known ⟨.wait, 0, 255⟩ ∧
    (at_ tc .wait 1 1 tiedInputs).block = .known ⟨.wait, 1, 1⟩ ∧ 1 < 2 ^ tc.params.dlyW ∧
    [tiedInputs].length ≤ 1 ∧ (tiedInputs.rst, tiedInputs.tick) = (false, true) := by decide

theorem witness_PlacedWordIsRun :
    decodeTableWord 8 0x22 = some .waitTick ∧ decodeTableWord 8 0x7F = some .reset ∧ decodeTableWord 5 0x1F = some (.romrd 31) ∧
    decodeTableWord 5 0 = some (.romrd 0) := by decide

/-- A transition outside each list of writers that answers a next state from registers with values to ones with values. -/
theorem witness_OnlyTheNamedInstructionsWriteEachElement :
    blockOf (exec .waitIdle (at_ tc .wait 255 2 tiedInputs)) = regs .wait 255 2 ∧
    blockOf (exec .waitTick (at_ tc .wait 255 2 tiedInputs)) = regs .wait 255 1 ∧
    blockOf (exec (.romrd 31) (at_ tc .wait 255 2 tiedInputs)) = regs .wait 255 2 ∧
    (∀ a, Instr.waitIdle ≠ .romrd a) := by
  refine ⟨by decide, by decide, by decide, by simp⟩

theorem witness_SimultaneousEventsHavePriorities :
    (ins true true true true).rst = true ∧ (ins false true true true).rst = false ∧
    (ins false true true true).dacInitAck = (ins false true false false).dacInitAck ∧
    (at_ tc .wait 1 0 tiedInputs).block = .known ⟨.wait, 1, 0⟩ := by decide

/-- Two machines that differ in what was handed over, in the placed inputs and in the edge count; and two before the first reset. -/
theorem witness_NothingHiddenDecidesAnEdge :
    let s := at_ tc .emit 9 0 tiedInputs
    let s' := { s with handed := [.init], stimulus := [], edge := 7 }
    s.cfg = s'.cfg ∧ s.block = s'.block ∧ isNext (runInputs s [tiedInputs]) = true ∧
    runInputs (powerOn tc []) [tiedInputs] = .fault .stateUnspecified := by
  refine ⟨rfl, rfl, by decide, rfl⟩

theorem witness_DataChangesOnlyAtThreeEdges :
    observe (at_ tc .emit 0 0 tiedInputs) = .next (outputs tc ⟨.emit, 0, 0⟩) ∧
    blockOf (step (at_ tc .emit 0 0 tiedInputs)) = regs .wait 1 2 ∧
    (outputs tc ⟨.wait, 1, 2⟩).dacData ≠ (outputs tc ⟨.emit, 0, 0⟩).dacData := by
  refine ⟨rfl, by decide, by decide⟩

/-- A legal state of TC in the middle of a delay, with its widths. -/
theorem witness_LegalStatesStayLegal :
    LegalState (at_ tc .wait 5 2 tiedInputs) ∧ isNext (step (at_ tc .wait 5 2 tiedInputs)) = true := by
  refine ⟨?_, by decide⟩
  rintro r hr
  cases hr
  exact ⟨⟨by decide, by decide⟩, ⟨by decide, by decide, by decide, by decide⟩⟩

/-- One sample after an initialization. -/
theorem witness_EveryStepPlaysTheTableInOrder :
    let s := { at_ tc .wait 1 2 tiedInputs with handed := [.sample 0x8000, .init] }
    LegalState s ∧ PlaysFromZero s ∧ isNext (step s) = true := by
  refine ⟨?_, ?_, by decide⟩
  · rintro r hr
    cases hr
    exact ⟨⟨by decide, by decide⟩, ⟨by decide, by decide, by decide, by decide⟩⟩
  · rintro r hr
    cases hr
    exact ⟨by decide, fun _ => ⟨1, [], by decide, by decide⟩⟩

/-- The sixth sample from counter value 250: the last count before the wrap, about to be acknowledged; and the WAIT after it. -/
theorem witness_EveryUnresetStepKeepsTheReplay :
    let s := { at_ tc .emit 255 0 tiedInputs with handed := playback tc 250 5 ++ [.init] }
    let s' := { at_ tc .wait 0 2 tiedInputs with handed := playback tc 250 6 ++ [.init] }
    s.block = .known ⟨.emit, 255, 0⟩ ∧ 255 < 2 ^ tc.params.cntW ∧ ReplaysFrom 250 [.init] s ∧ ReplaysFrom 250 [.init] s' ∧
    255 = (250 + 5) % 2 ^ tc.params.cntW ∧ (nextInputs s).rst = false ∧ (nextInputs s).dacAck = true ∧ isNext (step s) = true ∧
    (nextInputs s').rst = false ∧ isNext (step s') = true := by
  refine ⟨rfl, by decide, ⟨_, 5, rfl, .inl rfl, rfl, by decide⟩, ⟨_, 6, rfl, .inr rfl, rfl, by decide⟩, by decide, rfl, rfl,
    by decide, rfl, by decide⟩

/-- A delay of two with a gap between its ticks: before every edge fewer than two ticks have come. -/
theorem witness_DelayCountsExactlyItsTicks :
    (at_ tc .emit 255 0 tiedInputs).block = .known ⟨.emit, 255, 0⟩ ∧ tiedInputs.rst = false ∧ tiedInputs.dacAck = true ∧
    (at_ tc .wait 255 2 tiedInputs).block = .known ⟨.wait, 255, 2⟩ ∧ 2 < 2 ^ tc.params.dlyW ∧
    NoReset [tiedInputs, quietInputs, tiedInputs] ∧
    (∀ k, k < 3 → tickCount ([tiedInputs, quietInputs, tiedInputs].take k) < 2) ∧
    (at_ tc .wait 1 0 tiedInputs).block = .known ⟨.wait, 1, 0⟩ := by
  refine ⟨rfl, rfl, rfl, rfl, by decide, by simp [NoReset, tiedInputs, quietInputs], by decide, rfl⟩

/-- A block in EMIT with a counter that wraps within the next 32 emits. -/
theorem witness_EmitsReplayTheTableCyclically :
    (at_ tc .emit 250 0 tiedInputs).block = .known ⟨.emit, 250, 0⟩ ∧ InWidth tc ⟨.emit, 250, 0⟩ ∧
    NoReset [tiedInputs, quietInputs] := by
  refine ⟨rfl, ⟨by decide, by decide⟩, by simp [NoReset, tiedInputs, quietInputs]⟩

theorem witness_TiedAnswersGiveTheFastestPacing :
    (at_ tc .emit 255 0 tiedInputs).block = .known ⟨.emit, 255, 0⟩ ∧ 255 < 2 ^ tc.params.cntW := by decide

/-- The answered edge of each phase, in legal registers. -/
theorem witness_HangsAreExactlyTheUnansweredWaits :
    LegalRegs tc ⟨.wait, 5, 2⟩ ∧ InWidth tc ⟨.wait, 5, 2⟩ ∧ LegalRegs tc ⟨.init, 0, 0⟩ ∧ LegalRegs tc ⟨.emit, 9, 0⟩ ∧
    (tiedInputs.rst, tiedInputs.dacInitAck, tiedInputs.dacAck, tiedInputs.tick) = (false, true, true, true) := by
  refine ⟨⟨by decide, by decide, by decide, by decide⟩, ⟨by decide, by decide⟩, ⟨by decide, by decide, by decide, by decide⟩,
    ⟨by decide, by decide, by decide, by decide⟩, by decide⟩

/-- An environment that answers at once. -/
theorem witness_SamplesAreHandedOverWithoutEnd :
    LegalRegs tc Regs.reset ∧ InWidth tc Regs.reset ∧ EnvironmentAnswers tc Regs.reset (fun _ => tiedInputs) := by
  refine ⟨⟨by decide, by decide, by decide, by decide⟩, ⟨by decide, by decide⟩, ⟨fun _ => rfl, ?_, ?_, ?_⟩⟩
  · exact fun k _ _ _ => ⟨k, le_rfl, rfl⟩
  · exact fun k _ _ _ => ⟨k, le_rfl, rfl⟩
  · exact fun k _ _ _ _ => ⟨k, le_rfl, rfl⟩

end Sys2Proof.Tests
end

/-! The scope of the block (spec/00_scope.md): its parameters, its samples, and what each instruction writes. -/
namespace Sys2Proof.Machine

open Sys2Proof

/-! ### Legal parameters (00_scope.md R8 to R13) -/

/-- One constraint of a chain of checks, each of which names itself when it is broken. -/
theorem ite_not_some_eq_none_iff {α : Type} (P : Prop) [Decidable P] (v : α) (rest : Option α) :
    (if ¬ P then some v else rest) = none ↔ P ∧ rest = none := by
  by_cases h : P <;> simp [h]

/-- The check of the table's flag fields, read entry by entry. -/
theorem waveFlags_all_iff (p : Params) :
    p.wave.toList.all (fun w => p.flagField w == p.flagVal) = true ↔
      ∀ a : Fin 32, p.wave[a].toNat % 2 ^ p.flagW = p.flagVal := by
  simp [Params.flagField, Fin.forall_iff]

/-- Parameters break no rule exactly when they meet every constraint of 00_scope.md R8 to R12. -/
theorem violation_eq_none_iff (p : Params) :
    p.violation = none ↔
      (12 ≤ p.dataW ∧ p.dataW ≤ 16) ∧ p.flagVal < 2 ^ p.flagW ∧
      (∀ a : Fin 32, p.wave[a].toNat % 2 ^ p.flagW = p.flagVal) ∧
      5 ≤ p.cntW ∧ (1 ≤ p.dlyW ∧ p.delayTicks < 2 ^ p.dlyW) ∧ (1 ≤ p.cfgW ∧ p.dacCfg < 2 ^ p.cfgW) := by
  unfold Params.violation
  simp only [ite_not_some_eq_none_iff, waveFlags_all_iff, and_true, and_assoc]

/-- No step changes the configuration (00_scope.md R13). -/
theorem step_cfg {s t : State} (h : step s = .next t) : t.cfg = s.cfg := by
  obtain ⟨r, -, rfl⟩ | ⟨-, -, rfl⟩ := step_next h
  · rfl
  · rfl

/-! ### The two fields of a ROM word (30_encoding.md R63) -/

theorem dataW_add_flagW (c : Config) : c.params.dataW + c.params.flagW = 16 := by
  obtain ⟨⟨-, dataW_le⟩, -⟩ := legal_bounds c
  exact Nat.add_sub_cancel' dataW_le

theorem flagField_romRead (c : Config) (a : Addr) : c.params.flagField (romRead c a) = c.params.flagVal := by
  obtain ⟨-, -, flags, -⟩ := legal_bounds c
  exact flags a

theorem dataField_lt (c : Config) (w : Word) : c.params.dataField w < 2 ^ c.params.dataW := by
  apply Nat.div_lt_of_lt_mul
  rw [← pow_add, Nat.add_comm, dataW_add_flagW]
  exact w.isLt

theorem toNat_eq_dataField_add_flagField (p : Params) (w : Word) :
    w.toNat = p.dataField w * 2 ^ p.flagW + p.flagField w :=
  (Nat.div_add_mod' _ _).symm

/-! ### What an instruction writes (00_scope.md R16) -/

/-- The registers an instruction leaves. -/
def execRegs (c : Config) (r : Regs) : Instr → Regs
  | .reset | .illegalPhase => Regs.reset
  | .initDone | .waitDone => { r with phase := .emit }
  | .emitDone => { phase := .wait, cnt := countUp c r.cnt, dly := delayReload c }
  | .waitTick => { r with dly := countDown c r.dly }
  | .initHold | .emitHold | .waitIdle | .romrd _ => r

/-- The handshakes an instruction completes. -/
def execNews (c : Config) (r : Regs) : Instr → List Handshake
  | .initDone => [.init]
  | .emitDone => [.sample (romRead c (idx r))]
  | _ => []

/-- The word on `dac_data` after an instruction that found `old` there: only the ROM read drives another. -/
def execData (c : Config) (old : Option Word) : Instr → Option Word
  | .romrd a => some (romRead c a)
  | _ => old

/-- From registers with a value every instruction completes, and this is all it writes. -/
theorem exec_known {s : State} {r : Regs} (h : s.block = .known r) (i : Instr) :
    exec i s = .next { s with
      block := .known (execRegs s.cfg r i)
      dacData := execData s.cfg s.dacData i
      handed := execNews s.cfg r i ++ s.handed } := by
  obtain ⟨cfg, block, dacData, handed, stimulus, edge⟩ := s
  subst h -- so that a hold, which rewrites nothing, gives back the state itself
  cases i <;> rfl

theorem execRegs_cnt (c : Config) (r : Regs) {i : Instr} (h : i ∉ [Instr.reset, .emitDone, .illegalPhase]) :
    (execRegs c r i).cnt = r.cnt := by
  cases i with
  | reset | emitDone | illegalPhase => simp at h
  | initHold | initDone | emitHold | waitDone | waitTick | waitIdle | romrd => rfl

theorem execRegs_dly (c : Config) (r : Regs) {i : Instr} (h : i ∉ [Instr.reset, .emitDone, .waitTick, .illegalPhase]) :
    (execRegs c r i).dly = r.dly := by
  cases i with
  | reset | emitDone | waitTick | illegalPhase => simp at h
  | initHold | initDone | emitHold | waitDone | waitIdle | romrd => rfl

theorem execRegs_phase (c : Config) (r : Regs) {i : Instr}
    (h : i ∉ [Instr.reset, .initDone, .emitDone, .waitDone, .illegalPhase]) : (execRegs c r i).phase = r.phase := by
  cases i with
  | reset | initDone | emitDone | waitDone | illegalPhase => simp at h
  | initHold | emitHold | waitTick | waitIdle | romrd => rfl

theorem execNews_eq_nil (c : Config) (r : Regs) {i : Instr} (h : i ∉ [Instr.initDone, .emitDone]) :
    execNews c r i = [] := by
  cases i with
  | initDone | emitDone => simp at h
  | reset | initHold | emitHold | waitDone | waitTick | waitIdle | illegalPhase | romrd => rfl

theorem execData_eq_old (c : Config) (old : Option Word) {i : Instr} (h : ∀ a, i ≠ .romrd a) :
    execData c old i = old := by
  cases i with
  | romrd a => exact absurd rfl (h a)
  | reset | initHold | initDone | emitHold | emitDone | waitDone | waitTick | waitIdle | illegalPhase => rfl

/-! ### The statements -/

/-- Settles O1: the chain of checks read constraint by constraint, the two outcomes of building, and the frame of a step. -/
theorem illegalParametersAreRefused : Obligations.IllegalParametersAreRefused := by
  refine ⟨fun p stim => ⟨violation_eq_none_iff p, ?built, ?refused⟩, fun _ _ => step_cfg⟩
  case built => exact fun legal => ⟨⟨p, legal⟩, rfl, build_of_legal legal stim⟩
  case refused => exact fun _ broken => build_of_violation broken stim

/-- Settles O11: a legal table's flags are constant, and a word is its two fields side by side. -/
theorem everySampleIsCodeAboveConstantFlags : Obligations.EverySampleIsCodeAboveConstantFlags := by
  intro c a
  have flags := flagField_romRead c a
  have fields := toNat_eq_dataField_add_flagField c.params (romRead c a)
  rw [flags] at fields
  exact ⟨flags, dataField_lt c _, fields⟩

/-- Settles O24, from all that an instruction writes: each element keeps its value outside its list of writers. -/
theorem onlyTheNamedInstructionsWriteEachElement : Obligations.OnlyTheNamedInstructionsWriteEachElement := by
  intro i s t r r' hs hexec ht
  rw [exec_known hs] at hexec
  cases hexec
  cases ht
  refine ⟨rfl, rfl, rfl, execRegs_cnt s.cfg r, execRegs_dly s.cfg r, execRegs_phase s.cfg r, ?handed, execData_eq_old s.cfg _⟩
  case handed => exact fun h => by simp [execNews_eq_nil s.cfg r h]

end Sys2Proof.Machine

/-! The state of the block (spec/10_state.md): its signals and outputs, the reset edge, what decides an edge, and the two
invariants that every step keeps. -/
namespace Sys2Proof.Machine

open Sys2Proof

/-! ### The index (10_state.md R21) -/

theorem idx_getLsbD (r : Regs) {k : Nat} (h : k < 5) : (idx r).getLsbD k = r.cnt.testBit k := by
  simp only [idx, BitVec.getLsbD_ofNat, h, decide_true, Bool.true_and]

theorem idx_lt_32 (r : Regs) : (idx r).toNat < 32 := (idx r).isLt

/-- The index reads `CNT` modulo 32 only. -/
theorem idx_congr {r r' : Regs} (h : r.cnt % 32 = r'.cnt % 32) : idx r = idx r' := ofNat5_congr h

/-! ### The outputs (10_state.md R33) -/

theorem phaseBits_eq_zero_iff (ph : Phase) : phaseBits ph = 0b00 ↔ ph = .init := by cases ph <;> decide

theorem phaseBits_eq_one_iff (ph : Phase) : phaseBits ph = 0b01 ↔ ph = .emit := by cases ph <;> decide

theorem observe_unspecified {s : State} (h : s.block = .unspecified) : observe s = .fault .stateUnspecified := by
  simp [observe, h]

/-- A reading of the outputs depends on the configuration and the registers alone. -/
theorem observe_congr {s s' : State} (cfg : s.cfg = s'.cfg) (block : s.block = s'.block) : observe s = observe s' := by
  cases hb : s'.block with
  | unspecified => rw [observe_unspecified hb, observe_unspecified (block.trans hb)]
  | known r => rw [observe_known hb, observe_known (block.trans hb), cfg]

/-- The outputs of R34, in every state that has the reset values. -/
theorem observe_of_block_reset {s : State} (h : s.block = .known Regs.reset) :
    observe s = .next { dacInitReq := true, dacInitCfg := s.cfg.params.dacCfg, dacReq := false,
                        dacData := s.cfg.params.wave[0] } :=
  observe_known h

/-! ### The reset edge (10_state.md R34, R35) -/

/-- An edge with `rst = 1` completes from every state, before the first reset too, and hands nothing over. -/
theorem step_of_rst {s : State} (h : (nextInputs s).rst = true) :
    step s = .next { s with block := .known Regs.reset, dacData := some (romRead s.cfg (idx Regs.reset)),
                            stimulus := s.stimulus.tail, edge := s.edge + 1 } := by
  cases hb : s.block with
  | unspecified => exact step_unspecified_reset hb h
  | known r =>
    have regs : nextRegs s.cfg (nextInputs s) r = Regs.reset := if_pos h
    have news : newsOf s.cfg (nextInputs s) r = [] := if_pos h
    rw [step_known hb, regs, news, List.nil_append]

/-- What an edge with `rst = 1` leaves satisfies whatever holds of every state with the reset values. -/
theorem of_step_rst {P : State → Prop} (atReset : ∀ t : State, t.block = .known Regs.reset → P t) {s t : State}
    (hr : (nextInputs s).rst = true) (h : step s = .next t) : P t := by
  rw [step_of_rst hr] at h
  cases h
  exact atReset _ rfl

/-- Every transition but RESET reads a register, so it faults where none has a value (60_exceptions.md R101). -/
theorem exec_unspecified {s : State} (h : s.block = .unspecified) {i : Instr}
    (hi : i ∈ [Instr.initHold, .initDone, .emitHold, .emitDone, .waitDone, .waitTick, .waitIdle, .illegalPhase]) :
    exec i s = .fault .stateUnspecified := by
  cases i with
  | reset | romrd => simp at hi
  | initHold | initDone | emitHold | emitDone | waitDone | waitTick | waitIdle | illegalPhase => exact withRegs_unspecified h _

/-! ### What decides an edge (10_state.md R29) -/

/-- The registers after an edge and what it hands over; `none` where no register has a value and `rst = 0`. -/
def edgeResult (c : Config) (inp : Inputs) : BlockState → Option (Regs × List Handshake)
  | .unspecified => if inp.rst then some (Regs.reset, []) else none
  | .known r => some (nextRegs c inp r, newsOf c inp r)

/-- The state in the cycle after an edge with this result. -/
def landed (s : State) (r : Regs) (news : List Handshake) : State where
  cfg := s.cfg
  block := .known r
  dacData := some (romRead s.cfg (idx r))
  handed := news ++ s.handed
  stimulus := s.stimulus
  edge := s.edge + 1

theorem runInputs_single_of_some {s : State} {inp : Inputs} {r : Regs} {news : List Handshake}
    (h : edgeResult s.cfg inp s.block = some (r, news)) : runInputs s [inp] = .next (landed s r news) := by
  cases hb : s.block with
  | known r₀ =>
    rw [hb] at h
    cases h
    exact runInputs_known_cons hb inp []
  | unspecified =>
    cases hr : inp.rst with
    | true =>
      simp only [hb, edgeResult, hr, if_true] at h
      cases h
      rw [runInputs_cons, step_of_rst (s := { s with stimulus := inp :: s.stimulus }) hr]
      rfl
    | false => simp [hb, edgeResult, hr] at h

theorem runInputs_single_of_none {s : State} {inp : Inputs} (h : edgeResult s.cfg inp s.block = none) :
    runInputs s [inp] = .fault .stateUnspecified := by
  cases hb : s.block with
  | known r => simp [hb, edgeResult] at h
  | unspecified =>
    have hr : inp.rst = false := by simpa [hb, edgeResult] using h
    rw [runInputs_cons, step_unspecified_fault (s := { s with stimulus := inp :: s.stimulus }) hb hr]

/-! ### One edge, row by row (30_encoding.md R65) -/

/-- An edge takes registers `r` to others and hands something over: a row of the transition map with its guard, its
assignments and the handshake it completes. -/
inductive Edge (c : Config) (inp : Inputs) (r : Regs) : Regs → List Handshake → Prop where
  | reset (rst : inp.rst = true) : Edge c inp r Regs.reset []
  | initHold (rst : inp.rst = false) (phase : r.phase = .init) (ack : inp.dacInitAck = false) : Edge c inp r r []
  | initDone (rst : inp.rst = false) (phase : r.phase = .init) (ack : inp.dacInitAck = true) :
      Edge c inp r { r with phase := .emit } [.init]
  | emitHold (rst : inp.rst = false) (phase : r.phase = .emit) (ack : inp.dacAck = false) : Edge c inp r r []
  | emitDone (rst : inp.rst = false) (phase : r.phase = .emit) (ack : inp.dacAck = true) :
      Edge c inp r { phase := .wait, cnt := countUp c r.cnt, dly := delayReload c } [.sample (romRead c (idx r))]
  | waitDone (rst : inp.rst = false) (phase : r.phase = .wait) (dly : r.dly = 0) :
      Edge c inp r { r with phase := .emit } []
  | waitTick (rst : inp.rst = false) (phase : r.phase = .wait) (dly : r.dly ≠ 0) (tick : inp.tick = true) :
      Edge c inp r { r with dly := countDown c r.dly } []
  | waitIdle (rst : inp.rst = false) (phase : r.phase = .wait) (dly : r.dly ≠ 0) (tick : inp.tick = false) :
      Edge c inp r r []
  | illegalPhase (rst : inp.rst = false) (phase : r.phase = .illegal) : Edge c inp r Regs.reset []

/-- The edge function takes one of the rows. -/
theorem edge_nextRegs (c : Config) (inp : Inputs) (r : Regs) : Edge c inp r (nextRegs c inp r) (newsOf c inp r) := by
  cases rst : inp.rst with
  | true => simpa [nextRegs, newsOf, rst] using Edge.reset rst
  | false =>
    cases phase : r.phase with
    | init =>
      cases ack : inp.dacInitAck with
      | false => simpa [nextRegs, newsOf, rst, phase, ack] using Edge.initHold rst phase ack
      | true => simpa [nextRegs, newsOf, rst, phase, ack] using Edge.initDone rst phase ack
    | emit =>
      cases ack : inp.dacAck with
      | false => simpa [nextRegs, newsOf, rst, phase, ack] using Edge.emitHold rst phase ack
      | true => simpa [nextRegs, newsOf, rst, phase, ack] using Edge.emitDone rst phase ack
    | wait =>
      by_cases dly : r.dly = 0
      · simpa [nextRegs, newsOf, rst, phase, dly] using Edge.waitDone rst phase dly
      · cases tick : inp.tick with
        | false => simpa [nextRegs, newsOf, rst, phase, dly, tick] using Edge.waitIdle rst phase dly tick
        | true => simpa [nextRegs, newsOf, rst, phase, dly, tick] using Edge.waitTick rst phase dly tick
    | illegal => simpa [nextRegs, newsOf, rst, phase] using Edge.illegalPhase rst phase

/-- A step is an edge of the block, or the first reset. -/
theorem step_edge {s t : State} (h : step s = .next t) :
    (s.block = .unspecified ∧ (nextInputs s).rst = true) ∨
    ∃ r r' news, s.block = .known r ∧ t.block = .known r' ∧ t.cfg = s.cfg ∧ t.handed = news ++ s.handed ∧
      Edge s.cfg (nextInputs s) r r' news := by
  obtain ⟨r, hs, rfl⟩ | ⟨hs, rst, -⟩ := step_next h
  · exact .inr ⟨r, _, _, hs, rfl, rfl, rfl, edge_nextRegs ..⟩
  · exact .inl ⟨hs, rst⟩

/-- How an invariant is kept by every step: it holds at the reset values, and every edge of the block keeps it. -/
theorem step_keeps {P : State → Prop} (atReset : ∀ t : State, t.block = .known Regs.reset → P t)
    (edge : ∀ (s t : State) (r r' : Regs) (news : List Handshake), s.block = .known r → t.block = .known r' →
      t.cfg = s.cfg → t.handed = news ++ s.handed → Edge s.cfg (nextInputs s) r r' news → P s → P t)
    {s t : State} (hP : P s) (h : step s = .next t) : P t := by
  obtain ⟨-, rst⟩ | ⟨r, r', news, hs, ht, cfg, handed, taken⟩ := step_edge h
  · exact of_step_rst atReset rst h
  · exact edge s t r r' news hs ht cfg handed taken hP

/-! ### Legal states (10_state.md R18, R36) -/

theorem inWidth_reset (c : Config) : InWidth c Regs.reset := ⟨Nat.two_pow_pos _, Nat.two_pow_pos _⟩

theorem legalRegs_reset (c : Config) : LegalRegs c Regs.reset where
  notIllegal := by simp
  noDelayOutsideWait := fun _ => rfl
  delayBounded := by simp
  countZeroInInit := fun _ => rfl

theorem legalState_of_block_reset (t : State) (h : t.block = .known Regs.reset) : LegalState t := by
  intro r hr
  cases h.symm.trans hr
  exact ⟨inWidth_reset _, legalRegs_reset _⟩

/-- Every row keeps the widths: the two counters reduce to theirs. -/
theorem edge_inWidth {c : Config} {inp : Inputs} {r r' : Regs} {news : List Handshake} (h : Edge c inp r r' news)
    (w : InWidth c r) : InWidth c r' := by
  obtain ⟨cnt_lt, dly_lt⟩ := w
  cases h with
  | reset | illegalPhase => exact inWidth_reset c
  | initHold | emitHold | waitIdle | initDone | waitDone => exact ⟨cnt_lt, dly_lt⟩
  | emitDone => exact ⟨countUp_lt c _, delayTicks_lt c⟩
  | waitTick => exact ⟨cnt_lt, countDown_lt c _⟩

/-- Every row keeps R36. WAIT_TICK is where the width is needed: a `DLY` that fits counts down without a wrap. -/
theorem edge_legalRegs {c : Config} {inp : Inputs} {r r' : Regs} {news : List Handshake} (h : Edge c inp r r' news)
    (w : InWidth c r) (legal : LegalRegs c r) : LegalRegs c r' := by
  obtain ⟨-, dly_lt⟩ := w
  cases h with
  | reset | illegalPhase => exact legalRegs_reset c
  | initHold | emitHold | waitIdle => exact legal
  | initDone _ phase _ =>
    have dly : r.dly = 0 := legal.noDelayOutsideWait (by simp [phase])
    exact ⟨by simp, fun _ => dly, by simp, by simp⟩
  | emitDone => exact ⟨by simp, by simp, fun _ => le_rfl, by simp⟩
  | waitDone _ _ dly => exact ⟨by simp, fun _ => dly, by simp, by simp⟩
  | waitTick _ phase dly _ =>
    have bounded : r.dly - 1 ≤ c.params.delayTicks := (Nat.sub_le _ _).trans (legal.delayBounded phase)
    rw [countDown_of_ne_zero c dly dly_lt]
    exact ⟨by simp [phase], by simp [phase], fun _ => bounded, by simp [phase]⟩

theorem edge_legalState {s t : State} {r r' : Regs} {news : List Handshake} (hs : s.block = .known r)
    (ht : t.block = .known r') (cfg : t.cfg = s.cfg) (taken : Edge s.cfg (nextInputs s) r r' news)
    (legal : LegalState s) : LegalState t := by
  intro x hx
  cases ht.symm.trans hx
  rw [cfg]
  obtain ⟨width, regs⟩ := legal r hs
  exact ⟨edge_inWidth taken width, edge_legalRegs taken width regs⟩

/-! ### The play-back of the table (41_sequencer.md R86, 42_pacing_counter.md R95) -/

/-- The play-back invariant of registers and a record of handshakes, without the state around them. -/
structure PlaysRegs (c : Config) (r : Regs) (handed : List Handshake) : Prop where
  countZero : r.phase = .init → r.cnt = 0
  played : r.phase = .emit ∨ r.phase = .wait →
    ∃ n older, handed = playback c 0 n ++ .init :: older ∧ r.cnt = n % 2 ^ c.params.cntW

theorem playsFromZero_iff {s : State} {r : Regs} (h : s.block = .known r) :
    PlaysFromZero s ↔ PlaysRegs s.cfg r s.handed := by
  constructor
  · intro plays
    obtain ⟨countZero, played⟩ := plays r h
    exact ⟨countZero, played⟩
  · rintro ⟨countZero, played⟩ x hx
    cases h.symm.trans hx
    exact ⟨countZero, played⟩

theorem playsRegs_reset (c : Config) (handed : List Handshake) : PlaysRegs c Regs.reset handed :=
  ⟨fun _ => rfl, by simp⟩

theorem playsFromZero_of_block_reset (t : State) (h : t.block = .known Regs.reset) : PlaysFromZero t :=
  (playsFromZero_iff h).mpr (playsRegs_reset _ _)

/-- The next word of a play-back is the one at the index, also after `CNT` has wrapped: 32 divides `2^CNT_W`. -/
theorem sample_cons_playback {c : Config} {r : Regs} {n : Nat} (cnt : r.cnt = n % 2 ^ c.params.cntW) :
    .sample (romRead c (idx r)) :: playback c 0 n = playback c 0 (n + 1) := by
  have index : idx r = BitVec.ofNat 5 (0 + n) := by
    apply ofNat5_congr
    rw [cnt, mod_pow_mod_32, Nat.zero_add]
  rw [playback_succ, index]

/-- Every row keeps the play-back: INIT_DONE begins it with no word, and EMIT_DONE adds the next word and counts it. -/
theorem edge_playsRegs {c : Config} {inp : Inputs} {r r' : Regs} {news handed : List Handshake}
    (h : Edge c inp r r' news) (plays : PlaysRegs c r handed) : PlaysRegs c r' (news ++ handed) := by
  cases h with
  | reset | illegalPhase => exact playsRegs_reset c _
  | initHold | emitHold | waitIdle => exact plays
  | initDone _ phase _ =>
    have cnt : r.cnt = 0 := plays.countZero phase
    exact ⟨by simp, fun _ => ⟨0, handed, rfl, by simp [cnt]⟩⟩
  | emitDone _ phase _ =>
    obtain ⟨n, older, rfl, cnt⟩ := plays.played (.inl phase)
    refine ⟨by simp, fun _ => ⟨n + 1, older, ?word, ?count⟩⟩
    case word => rw [← sample_cons_playback cnt]; rfl
    case count => rw [cnt, countUp_mod]
  | waitDone _ phase _ | waitTick _ phase _ _ =>
    exact ⟨by simp [phase], fun _ => plays.played (.inr phase)⟩

theorem edge_playsFromZero {s t : State} {r r' : Regs} {news : List Handshake} (hs : s.block = .known r)
    (ht : t.block = .known r') (cfg : t.cfg = s.cfg) (handed : t.handed = news ++ s.handed)
    (taken : Edge s.cfg (nextInputs s) r r' news) (plays : PlaysFromZero s) : PlaysFromZero t := by
  rw [playsFromZero_iff ht, cfg, handed]
  exact edge_playsRegs taken ((playsFromZero_iff hs).mp plays)

/-! ### The statements -/

/-- Settles O29: the reset values are legal, and every row of the transition map keeps legal registers legal. -/
theorem legalStatesStayLegal : Obligations.LegalStatesStayLegal := by
  refine ⟨fun _ _ => step_keeps legalState_of_block_reset ?edge, fun _ _ => of_step_rst legalState_of_block_reset⟩
  case edge => exact fun _ _ _ _ _ hs ht cfg _ => edge_legalState hs ht cfg

/-- Settles O31: nothing is to be shown at the reset values, and every row keeps the play-back and its count. -/
theorem everyStepPlaysTheTableInOrder : Obligations.EveryStepPlaysTheTableInOrder := by
  refine ⟨fun _ _ _ => step_keeps playsFromZero_of_block_reset ?edge, fun _ _ => of_step_rst playsFromZero_of_block_reset⟩
  case edge => exact fun _ _ _ _ _ => edge_playsFromZero

/-- Settles O7: the index reads `CNT` modulo 32 only, also across the wrap because 32 divides `2^CNT_W`. -/
theorem indexIsTheCounterModulo32 : Obligations.IndexIsTheCounterModulo32 := by
  intro c r _
  refine ⟨fun _ => idx_getLsbD r, idx_toNat r, idx_lt_32 r, idx_congr ?later, idx_congr ?wrapped⟩
  case later => exact Nat.add_mod_right ..
  case wrapped => exact (mod_pow_mod_32 c _).trans (Nat.add_mod_right ..)

/-- Settles O27: the result of an edge is a function of the configuration, the inputs and the registers. -/
theorem nothingHiddenDecidesAnEdge : Obligations.NothingHiddenDecidesAnEdge := by
  intro s s' inp cfg block
  have same : edgeResult s'.cfg inp s'.block = edgeResult s.cfg inp s.block := by rw [cfg, block]
  cases result : edgeResult s.cfg inp s.block with
  | none =>
    rw [runInputs_single_of_none result, runInputs_single_of_none (same.trans result)]
    exact ⟨by simp, fun _ => id⟩
  | some after =>
    obtain ⟨r, news⟩ := after
    rw [runInputs_single_of_some result, runInputs_single_of_some (same.trans result)]
    refine ⟨?_, by simp⟩
    rintro _ ⟨⟩
    refine ⟨landed s' r news, news, rfl, rfl, ?data, observe_congr cfg.symm rfl, rfl, rfl⟩
    case data => simp only [landed, cfg]

/-- Settles O8: the requests decode `PHASE`, and a reading looks at the configuration and the registers only. -/
theorem outputsFollowTheStateAlone : Obligations.OutputsFollowTheStateAlone := by
  refine ⟨fun s r hs => ?_, fun _ _ => observe_congr⟩
  simp only [observe_known hs, outputs, phaseBits_eq_zero_iff, phaseBits_eq_one_iff]

/-- Settles O9: one law of the reset edge from every state, and the outputs that go with the reset values. -/
theorem resetEdgeLeavesTheResetValues : Obligations.ResetEdgeLeavesTheResetValues := by
  refine ⟨fun s rst => ⟨_, step_of_rst rst, rfl, rfl, rfl, observe_of_block_reset rfl⟩, ?afterReset⟩
  case afterReset => exact ⟨reset_block, observe_of_block_reset reset_block, reset_dacData⟩

/-- Settles O10: a reading and every transition but RESET faults, and RESET reads no register. -/
theorem nothingIsReadBeforeTheFirstReset : Obligations.NothingIsReadBeforeTheFirstReset := by
  intro s hs
  exact ⟨observe_unspecified hs, step_unspecified_fault hs, fun rst => ⟨_, step_of_rst rst, rfl, rfl⟩,
    fun _ => exec_unspecified hs⟩

/-- Settles O32: two of the invariants hold wherever the registers have the reset values, and `dac_data` is driven at their index. -/
theorem resetStateMeetsTheInvariants : Obligations.ResetStateMeetsTheInvariants := by
  refine ⟨legalState_of_block_reset _ reset_block, ⟨?data, by simp⟩, playsFromZero_of_block_reset _ reset_block⟩
  rintro _ ⟨⟩
  exact reset_dacData

end Sys2Proof.Machine

/-! The memory of the block (spec/20_memory.md): the ROM read that drives `dac_data` in the cycle after every edge. -/
namespace Sys2Proof.Machine

open Sys2Proof

/-- Whatever the transition at the edge left behind, a step that completes ends with the ROM read of the next cycle. -/
theorem step_ends_in_settle {s t : State} (h : step s = .next t) :
    ∃ i u, selected s = some i ∧ exec i s = .next u ∧ settle u = .next t := by
  cases selection : selected s with
  | none => simp [step, selection] at h
  | some i =>
    simp only [step, selection] at h
    obtain ⟨u, executed, settled⟩ := intoNextCycle_next h
    exact ⟨i, u, rfl, executed, settled⟩

/-- In a state with registers, `dac_data` is settled when it is the word at their index. -/
theorem dataSettled_of_known {s : State} {r : Regs} (regs : s.block = .known r)
    (data : s.dacData = some (romRead s.cfg (idx r))) : DataSettled s := by
  refine ⟨fun x hx => ?_, fun unspecified => ?_⟩
  · cases regs.symm.trans hx
    exact data
  · cases regs.symm.trans unspecified

/-- The ROM read is combinational: it drives `dac_data` from the registers it finds, which it does not write (R43). -/
theorem settle_dataSettled {u t : State} (h : settle u = .next t) : DataSettled t := by
  obtain ⟨r, regs, rfl⟩ := settle_next h
  exact dataSettled_of_known (r := r) regs rfl

/-- Settles O30: every step ends in the ROM read at the index of the registers that the transition left. -/
theorem everyStepSettlesTheDataPort : Obligations.EveryStepSettlesTheDataPort := by
  intro s t h
  obtain ⟨-, u, -, -, settled⟩ := step_ends_in_settle h
  exact settle_dataSettled settled

end Sys2Proof.Machine

/-! The encoding (spec/30_encoding.md): the bits of the control vector, the rows of the transition map, and what the
inputs can change at one edge. -/
namespace Sys2Proof.Machine

open Sys2Proof

/-! ### The bits of the control vector (30_encoding.md R61) -/

/-- The bit above `PHASE` is `rst`. -/
theorem getLsbD_two_ofBool_append (b : Bool) (v : BitVec 2) : (BitVec.ofBool b ++ v).getLsbD 2 = b := by
  rw [BitVec.getLsbD_append, if_neg (by decide), BitVec.getLsbD_ofBool]
  rfl

/-! ### The rows of the transition map (30_encoding.md R65, R66) -/

/-- Two rows ask for different values of a bit that both of them look at. -/
def RowsConflict (a b : CVRow) : Prop := a.hit &&& b.mask ≠ b.hit &&& a.mask

/-- No control vector meets two rows that conflict: under both masks it would have both values. -/
theorem RowsConflict.applies_eq_false {a b : CVRow} (conflict : RowsConflict a b) {cv : ControlVector}
    (ha : a.applies cv = true) : b.applies cv = false := by
  rw [← Bool.not_eq_true]
  intro hb
  rw [CVRow.applies, beq_iff_eq] at ha hb
  apply conflict
  rw [← ha, ← hb, BitVec.and_assoc, BitVec.and_assoc, BitVec.and_comm a.mask]

theorem transitionMap_pairwise_conflict : transitionMap.Pairwise RowsConflict := by
  unfold RowsConflict
  decide

/-- The rows that apply to a control vector are the decoder's row alone: some row applies, and a later one conflicts with it. -/
theorem filter_applies_eq_firstRow (cv : ControlVector) :
    transitionMap.filter (fun row => row.applies cv) = [(firstRow cv).get (firstRow_isSome cv)] := by
  have found : firstRow cv = some ((firstRow cv).get (firstRow_isSome cv)) := (Option.some_get _).symm
  generalize (firstRow cv).get (firstRow_isSome cv) = row at found ⊢
  obtain ⟨applies, before, after, map_eq, skipped⟩ := List.find?_eq_some_iff_append.mp found
  have conflicts : ∀ other ∈ after, RowsConflict row other := by
    have pairwise := transitionMap_pairwise_conflict
    rw [map_eq, List.pairwise_append, List.pairwise_cons] at pairwise
    obtain ⟨-, ⟨ofRow, -⟩, -⟩ := pairwise
    exact ofRow
  refine List.filter_eq_cons_iff.mpr ⟨before, after, map_eq, ?skipped, applies, ?later⟩
  case skipped => simpa using skipped
  case later => exact List.filter_eq_nil_iff.mpr fun other mem => by simp [(conflicts other mem).applies_eq_false applies]

/-- A control vector that meets a row of the map selects that row's transition. -/
theorem decodeCV_of_row {i : Instr} {cv : ControlVector} (hit mask : ControlVector)
    (row : ⟨i, hit, mask⟩ ∈ transitionMap) (applies : cv &&& mask = hit) : decodeCV cv = i := by
  have mem : ⟨i, hit, mask⟩ ∈ transitionMap.filter (fun row => row.applies cv) :=
    List.mem_filter.mpr ⟨row, beq_iff_eq.mpr applies⟩
  rw [filter_applies_eq_firstRow, List.mem_singleton] at mem
  rw [decodeCV, ← mem]

/-! ### Words of the two formats (30_encoding.md R69, 20_memory.md R45) -/

theorem decodeWord_romAddr (a : Addr) : decodeWord .romAddr a.toNat = .ok (.romrd a) := by
  have fits : Format.romAddr.fits a.toNat = true := decide_eq_true a.isLt
  simp [decodeWord, fits]

theorem decodeWord_cv7_of_wide {w : Nat} (wide : 2 ^ 7 ≤ w) : decodeWord .cv7 w = .error .cvTooWide := by
  have fits : Format.cv7.fits w = false := decide_eq_false (Nat.not_lt.mpr wide)
  simp [decodeWord, fits]

/-! ### What the inputs can change at one edge (30_encoding.md R67) -/

theorem pick_congr_dacInitAck {ph : Phase} (h : ph ≠ .init) (rst ia ia' da tk dz : Bool) :
    pick rst ph ia da tk dz = pick rst ph ia' da tk dz := by
  cases ph with
  | init => exact absurd rfl h
  | emit | wait | illegal => rfl

theorem pick_congr_dacAck {ph : Phase} (h : ph ≠ .emit) (rst ia da da' tk dz : Bool) :
    pick rst ph ia da tk dz = pick rst ph ia da' tk dz := by
  cases ph with
  | emit => exact absurd rfl h
  | init | wait | illegal => rfl

theorem pick_congr_dlyZ {ph : Phase} (h : ph ≠ .wait) (rst ia da tk dz dz' : Bool) :
    pick rst ph ia da tk dz = pick rst ph ia da tk dz' := by
  cases ph with
  | wait => exact absurd rfl h
  | init | emit | illegal => rfl

/-- The map reads `tick` in WAIT only, and there after `DLY_Z`. -/
theorem pick_congr_tick {ph : Phase} {dz : Bool} (h : ph = .wait → dz = true) (rst ia da tk tk' : Bool) :
    pick rst ph ia da tk dz = pick rst ph ia da tk' dz := by
  cases ph with
  | wait => rw [h rfl]; rfl
  | init | emit | illegal => rfl

theorem decodeCV_controlVector_of_rst {inp : Inputs} (h : inp.rst = true) (r : Regs) :
    decodeCV (controlVector inp r) = .reset := by
  rw [decodeCV_controlVector, h]
  rfl

/-- An edge makes the assignments of the selected transition, and completes its handshake. -/
theorem edge_eq_selected {c : Config} {inp : Inputs} {r r' : Regs} {news : List Handshake} (h : Edge c inp r r' news) :
    r' = execRegs c r (decodeCV (controlVector inp r)) ∧ news = execNews c r (decodeCV (controlVector inp r)) := by
  rw [decodeCV_controlVector]
  cases h with
  | reset rst => simp [pick, rst, execRegs, execNews]
  | initHold rst phase ack | initDone rst phase ack | emitHold rst phase ack | emitDone rst phase ack =>
    simp [pick, rst, phase, ack, execRegs, execNews]
  | waitDone rst phase dly => simp [pick, rst, phase, dly, execRegs, execNews]
  | waitTick rst phase dly tick | waitIdle rst phase dly tick => simp [pick, rst, phase, dly, tick, execRegs, execNews]
  | illegalPhase rst phase => simp [pick, rst, phase, execRegs, execNews]

/-- The inputs reach the state after an edge through the transition they select and in no other way. -/
theorem runInputs_congr_selected {s : State} {r : Regs} (hs : s.block = .known r) {inp inp' : Inputs}
    (same : decodeCV (controlVector inp r) = decodeCV (controlVector inp' r)) : runInputs s [inp] = runInputs s [inp'] := by
  obtain ⟨regs, news⟩ := edge_eq_selected (edge_nextRegs s.cfg inp r)
  obtain ⟨regs', news'⟩ := edge_eq_selected (edge_nextRegs s.cfg inp' r)
  rw [runInputs_known_cons hs, runInputs_known_cons hs]
  simp only [afterEdge, regs, regs', news, news', same]

/-! ### The statements -/

/-- Settles O6: each input is one that the selection does not read there, and the selection is all an edge takes from the
inputs. -/
theorem inputsOutsideTheirPhaseAreIgnored : Obligations.InputsOutsideTheirPhaseAreIgnored := by
  intro s r inp b hs
  refine ⟨fun phase => runInputs_congr_selected hs ?initAck, fun phase => runInputs_congr_selected hs ?ack,
    fun idle => runInputs_congr_selected hs ?tick, fun phase d => ?dlyZ, fun inp' r' rst rst' => ⟨?select, ?run⟩⟩
  case initAck => simpa only [decodeCV_controlVector] using pick_congr_dacInitAck phase ..
  case ack => simpa only [decodeCV_controlVector] using pick_congr_dacAck phase ..
  case tick =>
    have zero : r.phase = .wait → (r.dly == 0) = true := fun phase => by simpa [phase] using idle
    simpa only [decodeCV_controlVector] using pick_congr_tick zero ..
  case dlyZ => simpa only [decodeCV_controlVector] using pick_congr_dlyZ phase ..
  case select => rw [decodeCV_controlVector_of_rst rst, decodeCV_controlVector_of_rst rst']
  case run =>
    apply runInputs_congr_selected hs
    rw [decodeCV_controlVector_of_rst rst, decodeCV_controlVector_of_rst rst']

/-- Settles O2: any two rows conflict, so the first row that applies is the only one; the sizes are counted. -/
theorem everyControlVectorMatchesOneRow : Obligations.EveryControlVectorMatchesOneRow := by
  refine ⟨fun cv => ?one, ?sizes⟩
  case one => rw [filter_applies_eq_firstRow]; rfl
  case sizes => decide

/-- Settles O4: each control vector meets the pattern of its row in the map of 30_encoding.md R65. -/
theorem writtenWordsDecode : Obligations.WrittenWordsDecode :=
  ⟨decodeCV_of_row 0x40 0x40 (by decide) rfl, decodeCV_of_row 0x00 0x78 (by decide) rfl,
    decodeCV_of_row 0x08 0x78 (by decide) rfl, decodeCV_of_row 0x10 0x74 (by decide) rfl,
    decodeCV_of_row 0x14 0x74 (by decide) rfl, decodeCV_of_row 0x21 0x71 (by decide) rfl,
    decodeCV_of_row 0x22 0x73 (by decide) rfl, decodeCV_of_row 0x20 0x73 (by decide) rfl,
    decodeCV_of_row 0x30 0x70 (by decide) rfl, decodeWord_romAddr 31, decodeWord_cv7_of_wide (by decide)⟩

/-- Settles O5: the vector is its fields in R61's order, four of them single bits below the three of `rst` and `PHASE`. -/
theorem controlVectorBitsComeFromTheirSources : Obligations.ControlVectorBitsComeFromTheirSources := by
  intro inp r
  refine ⟨?rst, ?phase, ?initAck, ?ack, ?tick, ?dlyZ, rfl, rfl, rfl, rfl⟩ <;> unfold controlVector
  case rst => simp only [BitVec.append_ofBool, BitVec.getLsbD_concat_succ, getLsbD_two_ofBool_append]
  case phase =>
    iterate 4 rw [BitVec.extractLsb'_append_eq_of_le (by decide)]
    exact BitVec.extractLsb'_append_eq_right
  case initAck | ack | tick => simp only [BitVec.append_ofBool, BitVec.getLsbD_concat_succ, BitVec.getLsbD_concat_zero]
  case dlyZ => rw [BitVec.append_ofBool, BitVec.getLsbD_concat_zero]; rfl

end Sys2Proof.Machine

/-! The waveform ROM (spec/40_waveform_rom.md): the ROM read that drives `dac_data`, and the cyclic replay of the table from
any counter value. -/
namespace Sys2Proof.Machine

open Sys2Proof

/-! ### The ROM read (40_waveform_rom.md R75) -/

theorem exec_romrd (s : State) (a : Addr) : exec (.romrd a) s = .next (driveData s (romRead s.cfg a)) := rfl

/-- What a step leaves on `dac_data`, by the registers it leaves. -/
theorem step_dacData {s t : State} {r : Regs} (h : step s = .next t) (ht : t.block = .known r) :
    t.dacData = some (romRead s.cfg (idx r)) := by
  obtain ⟨shown, -⟩ := everyStepSettlesTheDataPort s t h
  rw [← step_cfg h]
  exact shown r ht

/-! ### A replay of `n` words (40_waveform_rom.md R78) -/

/-- The replay of `ReplaysFrom` with its number of words, of registers and a record of handshakes without the state around
them. -/
structure Replayed (c : Config) (start : Nat) (base : List Handshake) (n : Nat) (r : Regs) (handed : List Handshake) :
    Prop where
  looping : r.phase = .emit ∨ r.phase = .wait
  played : handed = playback c start n ++ base
  counted : r.cnt = (start + n) % 2 ^ c.params.cntW

theorem ReplaysFrom.replayed {start : Nat} {base : List Handshake} {s : State} (replay : ReplaysFrom start base s) :
    ∃ r n, s.block = .known r ∧ Replayed s.cfg start base n r s.handed := by
  obtain ⟨r, n, hs, looping, played, counted⟩ := replay
  exact ⟨r, n, hs, looping, played, counted⟩

theorem Replayed.replaysFrom {start n : Nat} {base : List Handshake} {s : State} {r : Regs}
    (replay : Replayed s.cfg start base n r s.handed) (hs : s.block = .known r) : ReplaysFrom start base s :=
  ⟨r, n, hs, replay.looping, replay.played, replay.counted⟩

/-- A replay begins in EMIT, with no word and the block's own counter value. -/
theorem replayed_zero {c : Config} {r : Regs} (phase : r.phase = .emit) (width : r.cnt < 2 ^ c.params.cntW)
    (handed : List Handshake) : Replayed c r.cnt handed 0 r handed where
  looping := .inl phase
  played := rfl
  counted := (Nat.mod_eq_of_lt width).symm

/-- The index after `n` counts is the address of the next word, also where `CNT` has wrapped: 32 divides `2^CNT_W`. -/
theorem idx_of_counted {c : Config} {r : Regs} {m : Nat} (counted : r.cnt = m % 2 ^ c.params.cntW) :
    idx r = BitVec.ofNat 5 m := by
  apply ofNat5_congr
  rw [counted, mod_pow_mod_32]

/-- Every row but RESET keeps a replay, which grows by what the row hands over: EMIT_DONE adds the next word and counts it,
the other rows of EMIT and WAIT hand nothing over and keep `CNT`. -/
theorem edge_replayed {c : Config} {inp : Inputs} {r r' : Regs} {news base handed : List Handshake} {start n : Nat}
    (h : Edge c inp r r' news) (rst : inp.rst = false) (replay : Replayed c start base n r handed) :
    Replayed c start base (n + news.length) r' (news ++ handed) := by
  obtain ⟨looping, played, counted⟩ := replay
  cases h with
  | reset set => simp [rst] at set
  | initHold _ phase | initDone _ phase | illegalPhase _ phase => simp [phase] at looping
  | emitHold | waitIdle => exact ⟨looping, played, counted⟩
  | waitDone => exact ⟨.inl rfl, played, counted⟩
  | waitTick _ phase => exact ⟨.inr phase, played, counted⟩
  | emitDone =>
    refine ⟨.inr rfl, ?word, ?count⟩
    case word => rw [idx_of_counted counted, played]; rfl
    case count => rw [counted, countUp_mod]; rfl

/-- A step without reset keeps a replay. -/
theorem step_replaysFrom {start : Nat} {base : List Handshake} {s t : State} (replay : ReplaysFrom start base s)
    (rst : (nextInputs s).rst = false) (h : step s = .next t) : ReplaysFrom start base t := by
  obtain ⟨r, n, hs, replayed⟩ := replay.replayed
  rw [step_known hs] at h
  cases h
  exact (edge_replayed (edge_nextRegs ..) rst replayed).replaysFrom rfl

/-- A run without reset completes and keeps a replay. -/
theorem runInputs_replaysFrom {start : Nat} {base : List Handshake} {s : State} (replay : ReplaysFrom start base s)
    (ins : List Inputs) (noReset : NoReset ins) :
    ∃ t, runInputs s ins = .next t ∧ t.cfg = s.cfg ∧ ReplaysFrom start base t := by
  induction ins generalizing s with
  | nil => exact ⟨s, rfl, rfl, replay⟩
  | cons inp rest ih =>
    obtain ⟨rst, noResetRest⟩ := List.forall_mem_cons.mp noReset
    obtain ⟨r, n, hs, replayed⟩ := replay.replayed
    rw [runInputs_known_cons hs]
    have kept : ReplaysFrom start base (afterEdge s inp r) :=
      (edge_replayed (edge_nextRegs s.cfg inp r) rst replayed).replaysFrom rfl
    exact ih kept noResetRest

/-! ### One round of the table -/

/-- The words of a play-back, oldest first. -/
theorem wordsOf_playback (c : Config) (start n : Nat) :
    (wordsOf (playback c start n)).reverse = (List.range n).map (fun k => romRead c (BitVec.ofNat 5 (start + k))) := by
  induction n with
  | zero => rfl
  | succ n ih => rw [playback_succ, wordsOf_sample, List.reverse_cons, ih, List.range_succ, List.map_append]; rfl

/-- 32 emits hand over the table, rotated so that it begins at the start value. -/
theorem wordsOf_playback_round (c : Config) (start : Nat) :
    (wordsOf (playback c start 32)).reverse = c.params.wave.toList.rotate start := by
  rw [wordsOf_playback]
  apply List.ext_getElem
  · simp
  · intro k _ _
    simp [List.getElem_rotate, romRead, Nat.add_comm]

/-- 32 emits hand over each entry of the table exactly once. -/
theorem wordsOf_playback_round_perm (c : Config) (start : Nat) :
    (wordsOf (playback c start 32)).Perm c.params.wave.toList := by
  have rotated : (wordsOf (playback c start 32)).reverse.Perm c.params.wave.toList := by
    rw [wordsOf_playback_round]
    exact List.rotate_perm _ _
  exact (List.reverse_perm _).symm.trans rotated

/-! ### The statements -/

/-- Settles O38: a replay begins with no word, every row but RESET keeps it, and an acknowledged EMIT hands one word over. -/
theorem everyUnresetStepKeepsTheReplay : Obligations.EveryUnresetStepKeepsTheReplay := by
  refine ⟨?start, fun _ _ _ _ => step_replaysFrom, ?acknowledged⟩
  case start => exact fun s r hs phase width => (replayed_zero phase width _).replaysFrom hs
  case acknowledged =>
    intro start n base s t r hs phase played counted rst ack h
    have one : (newsOf s.cfg (nextInputs s) r).length = 1 := by simp [newsOf, rst, phase, ack]
    have grown := edge_replayed (edge_nextRegs s.cfg (nextInputs s) r) rst ⟨.inl phase, played, counted⟩
    rw [step_known hs] at h
    cases h
    rw [one] at grown
    exact grown.played

/-- Settles O21: ROMRD drives one port, and every step ends with it at the index of the registers it leaves, which is also
where the output is read. -/
theorem romReadDrivesTheSampleOutput : Obligations.RomReadDrivesTheSampleOutput := by
  refine ⟨exec_romrd, fun s t r h ht => ⟨?word, outputs t.cfg r, observe_known ht, ?output⟩⟩
  case word => rw [step_dacData h ht, wave_getElem?_mod]; rfl
  case output => rw [step_dacData h ht, step_cfg h]; rfl

/-- Settles O34: every edge of a run without reset keeps the replay, a round of 32 is a rotation of the table, and the word
after a round is at the address where the round began. -/
theorem emitsReplayTheTableCyclically : Obligations.EmitsReplayTheTableCyclically := by
  intro s r hs phase width
  obtain ⟨cntWidth, -⟩ := width
  refine ⟨fun ins noReset => ?run, wordsOf_playback_round_perm s.cfg r.cnt, fun n => ?again⟩
  case run =>
    have begins : ReplaysFrom r.cnt s.handed s := (replayed_zero phase cntWidth _).replaysFrom hs
    obtain ⟨t, ran, cfg, r', n, ht, looping, played, counted⟩ := runInputs_replaysFrom begins ins noReset
    rw [cfg] at played counted
    exact ⟨t, r', n, ran, ht, looping, played, counted⟩
  case again =>
    have address : BitVec.ofNat 5 (r.cnt + (n + 32)) = BitVec.ofNat 5 (r.cnt + n) := ofNat5_congr (by omega)
    rw [playback_succ, address]

end Sys2Proof.Machine

/-! The sequencer (spec/41_sequencer.md): when each transition is selected, what a step that selects it does, holds that
last, and the phase graph. -/
namespace Sys2Proof.Machine

open Sys2Proof

/-! ### The condition of each transition (41_sequencer.md R81 to R87, 42_pacing_counter.md R91 to R93) -/

/-- The inputs and registers with which an edge selects the instruction. Selection never names the ROM read. -/
def SelectedWhen (inp : Inputs) (r : Regs) : Instr → Prop
  | .reset => inp.rst = true
  | .initHold => inp.rst = false ∧ r.phase = .init ∧ inp.dacInitAck = false
  | .initDone => inp.rst = false ∧ r.phase = .init ∧ inp.dacInitAck = true
  | .emitHold => inp.rst = false ∧ r.phase = .emit ∧ inp.dacAck = false
  | .emitDone => inp.rst = false ∧ r.phase = .emit ∧ inp.dacAck = true
  | .waitDone => inp.rst = false ∧ r.phase = .wait ∧ r.dly = 0
  | .waitTick => inp.rst = false ∧ r.phase = .wait ∧ r.dly ≠ 0 ∧ inp.tick = true
  | .waitIdle => inp.rst = false ∧ r.phase = .wait ∧ r.dly ≠ 0 ∧ inp.tick = false
  | .illegalPhase => inp.rst = false ∧ r.phase = .illegal
  | .romrd _ => False

theorem decodeCV_of_selectedWhen {inp : Inputs} {r : Regs} {i : Instr} (h : SelectedWhen inp r i) :
    decodeCV (controlVector inp r) = i := by
  rw [decodeCV_controlVector]
  cases i with
  | reset =>
    have rst : inp.rst = true := h
    simp [pick, rst]
  | initHold | initDone | emitHold | emitDone =>
    obtain ⟨rst, phase, ack⟩ := h
    simp [pick, rst, phase, ack]
  | waitDone =>
    obtain ⟨rst, phase, dly⟩ := h
    simp [pick, rst, phase, dly]
  | waitTick | waitIdle =>
    obtain ⟨rst, phase, dly, tick⟩ := h
    simp [pick, rst, phase, dly, tick]
  | illegalPhase =>
    obtain ⟨rst, phase⟩ := h
    simp [pick, rst, phase]
  | romrd => exact h.elim

/-- Every row of the map is taken under its condition. -/
theorem edge_selectedWhen {c : Config} {inp : Inputs} {r r' : Regs} {news : List Handshake} (h : Edge c inp r r' news) :
    ∃ i, SelectedWhen inp r i := by
  cases h with
  | reset rst => exact ⟨.reset, rst⟩
  | initHold rst phase ack => exact ⟨.initHold, rst, phase, ack⟩
  | initDone rst phase ack => exact ⟨.initDone, rst, phase, ack⟩
  | emitHold rst phase ack => exact ⟨.emitHold, rst, phase, ack⟩
  | emitDone rst phase ack => exact ⟨.emitDone, rst, phase, ack⟩
  | waitDone rst phase dly => exact ⟨.waitDone, rst, phase, dly⟩
  | waitTick rst phase dly tick => exact ⟨.waitTick, rst, phase, dly, tick⟩
  | waitIdle rst phase dly tick => exact ⟨.waitIdle, rst, phase, dly, tick⟩
  | illegalPhase rst phase => exact ⟨.illegalPhase, rst, phase⟩

theorem selected_eq_decodeCV {s : State} {r : Regs} (hs : s.block = .known r) :
    selected s = some (decodeCV (controlVector (nextInputs s) r)) := by
  simp only [selected, hs]

/-- An instruction is selected exactly under its condition: some condition holds at every edge, and it decides the
selection. -/
theorem selected_iff {s : State} {r : Regs} (hs : s.block = .known r) (i : Instr) :
    selected s = some i ↔ SelectedWhen (nextInputs s) r i := by
  rw [selected_eq_decodeCV hs, Option.some_inj]
  refine ⟨?_, decodeCV_of_selectedWhen⟩
  rintro rfl
  obtain ⟨i, when⟩ := edge_selectedWhen (edge_nextRegs s.cfg (nextInputs s) r)
  rwa [decodeCV_of_selectedWhen when]

/-- RESET needs no register, so its selection is the same before the first reset (10_state.md R35). -/
theorem selected_reset_iff (s : State) : selected s = some .reset ↔ (nextInputs s).rst = true := by
  cases hb : s.block with
  | known r => exact selected_iff hb .reset
  | unspecified => simp [selected_unspecified hb]

/-! ### What the selected transition does at the edge (41_sequencer.md R80) -/

theorem nextRegs_of_selectedWhen {inp : Inputs} {r : Regs} {i : Instr} (c : Config) (h : SelectedWhen inp r i) :
    nextRegs c inp r = execRegs c r i ∧ newsOf c inp r = execNews c r i := by
  obtain ⟨regs, news⟩ := edge_eq_selected (edge_nextRegs c inp r)
  rw [decodeCV_of_selectedWhen h] at regs news
  exact ⟨regs, news⟩

/-- The step of a known selection: the transition's registers and handshakes, and the ROM read at the new index. -/
theorem step_of_selected {s : State} {r : Regs} (hs : s.block = .known r) {i : Instr} (sel : selected s = some i) :
    step s = .next { s with
      block := .known (execRegs s.cfg r i)
      dacData := some (romRead s.cfg (idx (execRegs s.cfg r i)))
      handed := execNews s.cfg r i ++ s.handed
      stimulus := s.stimulus.tail
      edge := s.edge + 1 } := by
  obtain ⟨regs, news⟩ := nextRegs_of_selectedWhen s.cfg ((selected_iff hs i).mp sel)
  rw [step_known hs, regs, news]

/-- With `DELAY_TICKS = 0` the delay that EMIT_DONE loads is over in the next cycle (41_sequencer.md R85). -/
theorem waitDone_after_emitDone {s : State} {r : Regs} (hs : s.block = .known r) (noDelay : s.cfg.params.delayTicks = 0)
    (sel : selected s = some .emitDone) :
    ∃ t, step s = .next t ∧ ((nextInputs t).rst = false → selected t = some .waitDone) :=
  ⟨_, step_of_selected hs sel, fun rst => (selected_iff rfl .waitDone).mpr ⟨rst, rfl, noDelay⟩⟩

/-- A transition that keeps the registers and hands nothing over, selected by every input, lasts for the whole run. -/
theorem runInputs_of_hold {s : State} {r : Regs} (hs : s.block = .known r) (i : Instr) (keeps : execRegs s.cfg r i = r)
    (silent : execNews s.cfg r i = []) (ins : List Inputs) (when : ∀ inp ∈ ins, SelectedWhen inp r i) :
    ∃ t, runInputs s ins = .next t ∧ t.block = .known r ∧ t.handed = s.handed ∧ t.cfg = s.cfg := by
  refine runInputs_stays (SelectedWhen · r i) hs (fun inp h => ?still) ins when
  case still =>
    obtain ⟨regs, news⟩ := nextRegs_of_selectedWhen s.cfg h
    exact ⟨regs.trans keeps, news.trans silent⟩

/-- `rst` held for some edges: the first one loads the reset values, which the others load again. -/
theorem runInputs_of_rst {s : State} {ins : List Inputs} (nonempty : ins ≠ []) (rst : ∀ inp ∈ ins, inp.rst = true) :
    ∃ t, runInputs s ins = .next t ∧ t.block = .known Regs.reset ∧ t.handed = s.handed := by
  cases ins with
  | nil => exact absurd rfl nonempty
  | cons inp rest =>
    obtain ⟨first, later⟩ := List.forall_mem_cons.mp rst
    rw [runInputs_cons, step_of_rst (s := { s with stimulus := inp :: s.stimulus }) first]
    have held : ∀ u : State, u.block = .known Regs.reset →
        ∃ t, runInputs u rest = .next t ∧ t.block = .known Regs.reset ∧ t.handed = u.handed := by
      intro u hu
      obtain ⟨t, ran, ht, handed, -⟩ := runInputs_of_hold hu .reset rfl rfl rest later
      exact ⟨t, ran, ht, handed⟩
    exact held _ rfl

/-! ### The outputs in a phase, and the index at the largest count -/

theorem observe_of_phase {s : State} {r : Regs} {ph : Phase} (hs : s.block = .known r) (phase : r.phase = ph) :
    observe s = .next { dacInitReq := decide (ph = .init), dacInitCfg := s.cfg.params.dacCfg,
                        dacReq := decide (ph = .emit), dacData := romRead s.cfg (idx r) } := by
  rw [observe_known hs, ← phase]
  rfl

/-- At the largest `CNT` the index is 31, since 32 divides `2^CNT_W` (42_pacing_counter.md R95). -/
theorem idx_of_cnt_max {c : Config} {r : Regs} (max : r.cnt = 2 ^ c.params.cntW - 1) : idx r = 31 := by
  obtain ⟨m, range⟩ : 2 ^ 5 ∣ 2 ^ c.params.cntW := pow_dvd_pow 2 (cntW_ge c)
  have pos : 0 < 2 ^ c.params.cntW := Nat.two_pow_pos _
  apply BitVec.eq_of_toNat_eq
  rw [idx_toNat, max]
  change _ = 31
  omega

/-! ### The statements -/

/-- Settles O25: a selected transition begins in the phase of its condition and ends in the phase it assigns. -/
theorem phasesFollowTheGraph : Obligations.PhasesFollowTheGraph := by
  intro s t r r' i hs sel h ht
  have when := (selected_iff hs i).mp sel
  rw [step_of_selected hs sel] at h
  cases h
  cases ht
  cases i with
  | reset => exact .inl ⟨rfl, rfl⟩
  | initHold | initDone | emitHold | emitDone | waitDone | waitTick | waitIdle =>
    obtain ⟨-, phase, -⟩ := when
    simp [execRegs, phase]
  | illegalPhase =>
    obtain ⟨-, phase⟩ := when
    simp [execRegs, phase]
  | romrd => exact when.elim

/-- Settles O22: from registers with a value every instruction completes, and a step is the selected one with the ROM read
after it. -/
theorem stepRunsTheSelectedTransition : Obligations.StepRunsTheSelectedTransition := by
  intro s r hs
  exact ⟨_, _, exec_known hs _, rfl, step_of_selected hs (selected_eq_decodeCV hs)⟩

/-- Settles O12: RESET reads no register, and every further edge with `rst = 1` loads the values that are there. -/
theorem resetLoadsTheResetValues : Obligations.ResetLoadsTheResetValues := by
  intro s
  exact ⟨rfl, selected_reset_iff s, rfl, fun _ => observe_known, fun _ => runInputs_of_rst⟩

/-- Settles O13: every input without reset and acknowledge selects INIT_HOLD again. -/
theorem initHoldKeepsTheState : Obligations.InitHoldKeepsTheState := by
  intro s r hs
  refine ⟨withRegs_known hs _, selected_iff hs .initHold, observe_of_phase hs, fun phase ins noReset noAck => ?hold⟩
  case hold =>
    obtain ⟨t, ran, ht, handed, -⟩ :=
      runInputs_of_hold hs .initHold rfl rfl ins fun inp mem => ⟨noReset inp mem, phase, noAck inp mem⟩
    exact ⟨t, ran, ht.trans hs.symm, handed⟩

/-- Settles O14: the entries into INIT are read off the phase graph. -/
theorem initDoneEntersEmit : Obligations.InitDoneEntersEmit := by
  intro s r hs
  refine ⟨withRegs_known hs _, selected_iff hs .initDone, observe_of_phase hs, fun sel => ?requests,
    fun t r' h ht enters outside => ?entries⟩
  case requests => exact ⟨_, _, step_of_selected hs sel, observe_of_phase rfl rfl, rfl, rfl⟩
  case entries =>
    have sel := selected_eq_decodeCV hs
    obtain ⟨reset, -⟩ | edge := phasesFollowTheGraph s t r r' _ hs sel h ht
    · exact .inl (sel.trans (congrArg some reset))
    · obtain ⟨-, illegal⟩ : r.phase = .illegal ∧ decodeCV (controlVector (nextInputs s) r) = .illegalPhase := by
        simpa [enters, outside] using edge
      exact .inr (sel.trans (congrArg some illegal))

/-- Settles O15: every input without reset and acknowledge selects EMIT_HOLD again, and the outputs read nothing that
changes. -/
theorem emitHoldKeepsTheState : Obligations.EmitHoldKeepsTheState := by
  intro s r hs
  refine ⟨withRegs_known hs _, selected_iff hs .emitHold, observe_of_phase hs, fun phase ins noReset noAck => ?hold⟩
  case hold =>
    obtain ⟨t, ran, ht, handed, cfg⟩ :=
      runInputs_of_hold hs .emitHold rfl rfl ins fun inp mem => ⟨noReset inp mem, phase, noAck inp mem⟩
    have block : t.block = s.block := ht.trans hs.symm
    exact ⟨t, ran, block, handed, observe_congr cfg block⟩

/-- Settles O16: the word is read before the count; the largest count has index 31 and wraps to 0. -/
theorem emitDoneHandsOverThenCountsThenWaits : Obligations.EmitDoneHandsOverThenCountsThenWaits := by
  intro s r hs
  have executed : exec .emitDone s = .next _ := withRegs_known hs _
  refine ⟨executed, selected_iff hs .emitDone, observe_of_phase hs, fun t r' h ht => ?after, waitDone_after_emitDone hs⟩
  case after =>
    rw [executed] at h
    cases h
    cases ht
    refine ⟨beq_iff_eq, fun max => ?wrap⟩
    have wraps : countUp s.cfg r.cnt = 0 := by rw [max, countUp_max]
    exact ⟨wraps, idx_of_cnt_max max, congrArg (BitVec.ofNat 5) wraps⟩

/-- Settles O17: with a phase to read, ILLEGAL_PHASE makes the assignments of RESET. -/
theorem illegalPhaseRecoversAsResetDoes : Obligations.IllegalPhaseRecoversAsResetDoes := by
  intro s r hs
  have executed : exec .illegalPhase s = exec .reset s := withRegs_known hs _
  exact ⟨executed, executed, selected_iff hs .illegalPhase, observe_of_phase hs⟩

end Sys2Proof.Machine

/-! The pacing counter (spec/42_pacing_counter.md): the edges of a WAIT phase, its length, and the fastest pacing. -/
namespace Sys2Proof.Machine

open Sys2Proof

/-! ### One edge of a run, by the transition its inputs select -/

/-- A run takes the transition its first inputs select, and goes on from there. -/
theorem runInputs_cons_of_selectedWhen {s : State} {r : Regs} (hs : s.block = .known r) {inp : Inputs} {i : Instr}
    (when : SelectedWhen inp r i) (rest : List Inputs) :
    runInputs s (inp :: rest) = runInputs (landed s (execRegs s.cfg r i) (execNews s.cfg r i)) rest := by
  obtain ⟨regs, news⟩ := nextRegs_of_selectedWhen s.cfg when
  rw [runInputs_known_cons hs, ← regs, ← news]
  rfl

/-! ### Counting ticks (42_pacing_counter.md R92 to R94) -/

theorem tickCount_of_ticked {ins : List Inputs} (ticked : ∀ inp ∈ ins, inp.tick = true) : tickCount ins = ins.length := by
  rw [tickCount, List.filter_eq_self.mpr ticked]

/-- An edge of an unfinished delay counts its tick, if it samples one, and hands nothing over. -/
theorem runInputs_cons_of_unfinished {s : State} {r : Regs} (hs : s.block = .known r) (fits : r.dly < 2 ^ s.cfg.params.dlyW)
    (phase : r.phase = .wait) (unfinished : r.dly ≠ 0) {inp : Inputs} (rst : inp.rst = false) (rest : List Inputs) :
    runInputs s (inp :: rest) = runInputs (landed s { r with dly := r.dly - if inp.tick then 1 else 0 } []) rest := by
  cases tick : inp.tick with
  | true =>
    rw [runInputs_cons_of_selectedWhen hs (i := .waitTick) ⟨rst, phase, unfinished, tick⟩, execRegs,
      countDown_of_ne_zero s.cfg unfinished fits]
    rfl
  | false => exact runInputs_cons_of_selectedWhen hs (i := .waitIdle) ⟨rst, phase, unfinished, tick⟩ rest

/-- A run of WAIT whose delay is unfinished before each of its edges counts the ticks it samples, and nothing else: the delay
that is left falls by as many as come, in whatever cycles they come. -/
theorem runInputs_counts {s : State} {r : Regs} (hs : s.block = .known r) (fits : r.dly < 2 ^ s.cfg.params.dlyW)
    (phase : r.phase = .wait) {ins : List Inputs} (noReset : NoReset ins)
    (unfinished : ∀ k, k < ins.length → tickCount (ins.take k) < r.dly) :
    ∃ t, runInputs s ins = .next t ∧ t.block = .known { r with dly := r.dly - tickCount ins } ∧
      t.handed = s.handed ∧ t.cfg = s.cfg := by
  induction ins generalizing s r with
  | nil => exact ⟨s, rfl, hs, rfl, rfl⟩
  | cons inp rest ih =>
    obtain ⟨rst, noResetRest⟩ := List.forall_mem_cons.mp noReset
    have pos : 0 < r.dly := unfinished 0 (Nat.succ_pos _)
    have later : ∀ k, k < rest.length → tickCount (rest.take k) < r.dly - if inp.tick then 1 else 0 := by
      intro k hk
      have bound := unfinished (k + 1) (Nat.succ_lt_succ hk)
      rw [List.take_succ_cons, tickCount_cons] at bound
      exact Nat.lt_sub_of_add_lt bound
    rw [runInputs_cons_of_unfinished hs fits phase pos.ne' rst, tickCount_cons, Nat.add_comm, Nat.sub_add_eq]
    exact ih (s := landed s { r with dly := r.dly - if inp.tick then 1 else 0 } []) rfl ((Nat.sub_le _ _).trans_lt fits) phase
      noResetRest later

/-- A tick in every cycle counts as many ticks as there are cycles. -/
theorem runInputs_of_ticked {s : State} {r : Regs} (hs : s.block = .known r) (fits : r.dly < 2 ^ s.cfg.params.dlyW)
    (phase : r.phase = .wait) {ins : List Inputs} (noReset : NoReset ins) (ticked : ∀ inp ∈ ins, inp.tick = true)
    (enough : ins.length ≤ r.dly) :
    ∃ t, runInputs s ins = .next t ∧ t.block = .known { r with dly := r.dly - ins.length } ∧
      t.handed = s.handed ∧ t.cfg = s.cfg := by
  rw [← tickCount_of_ticked ticked]
  refine runInputs_counts hs fits phase noReset fun k hk => ?unfinished
  case unfinished =>
    calc tickCount (ins.take k)
      _ ≤ (ins.take k).length := tickCount_le _
      _ ≤ k := List.length_take_le _ _
      _ < ins.length := hk
      _ ≤ r.dly := enough

/-! ### The tied platform (30_encoding.md R71, 42_pacing_counter.md R94, R96) -/

theorem runInputs_tied_counts {s : State} {r : Regs} (hs : s.block = .known r) (fits : r.dly < 2 ^ s.cfg.params.dlyW)
    (phase : r.phase = .wait) {k : Nat} (enough : k ≤ r.dly) :
    ∃ t, runInputs s (List.replicate k tiedInputs) = .next t ∧ t.block = .known { r with dly := r.dly - k } ∧
      t.handed = s.handed ∧ t.cfg = s.cfg := by
  have ticked : ∀ inp ∈ List.replicate k tiedInputs, inp.tick = true := by
    intro inp mem
    rw [List.eq_of_mem_replicate mem]
    rfl
  have counted := runInputs_of_ticked hs fits phase (noReset_tied k) ticked
  rw [List.length_replicate] at counted
  exact counted enough

/-- On the tied platform a WAIT phase lasts one cycle for each tick and one for WAIT_DONE. -/
theorem runInputs_tied_wait {s : State} {r : Regs} (hs : s.block = .known r) (fits : r.dly < 2 ^ s.cfg.params.dlyW)
    (phase : r.phase = .wait) :
    ∃ t, runInputs s (List.replicate (r.dly + 1) tiedInputs) = .next t ∧
      t.block = .known { phase := .emit, cnt := r.cnt, dly := 0 } ∧ t.handed = s.handed ∧ t.cfg = s.cfg := by
  obtain ⟨u, ran, hu, handed, cfg⟩ := runInputs_tied_counts hs fits phase le_rfl
  rw [Nat.sub_self] at hu
  rw [List.replicate_succ', runInputs_append ran,
    runInputs_cons_of_selectedWhen hu (i := .waitDone) ⟨rfl, phase, rfl⟩]
  exact ⟨_, rfl, rfl, handed, cfg⟩

/-- On the tied platform one sample takes the EMIT_DONE cycle and a WAIT phase of `DELAY_TICKS + 1` cycles. -/
theorem runInputs_tied_sample {s : State} {r : Regs} (hs : s.block = .known r) (phase : r.phase = .emit) :
    ∃ t, runInputs s (List.replicate (s.cfg.params.delayTicks + 2) tiedInputs) = .next t ∧
      t.block = .known { phase := .emit, cnt := countUp s.cfg r.cnt, dly := 0 } ∧
      t.handed = .sample (romRead s.cfg (idx r)) :: s.handed ∧ t.cfg = s.cfg := by
  rw [List.replicate_succ, runInputs_cons_of_selectedWhen hs (i := .emitDone) ⟨rfl, phase, rfl⟩]
  exact runInputs_tied_wait (r := { phase := .wait, cnt := countUp s.cfg r.cnt, dly := delayReload s.cfg }) rfl
    (delayTicks_lt s.cfg) rfl

/-- On the tied platform the samples follow each other: the next one takes `DELAY_TICKS + 2` further edges and hands over the
word at the counter, which has advanced by the samples before it. -/
theorem runInputs_tied_samples {s : State} {r : Regs} (hs : s.block = .known r) (phase : r.phase = .emit)
    (width : r.cnt < 2 ^ s.cfg.params.cntW) (dly : r.dly = 0) (n : Nat) :
    ∃ t, runInputs s (List.replicate (n * (s.cfg.params.delayTicks + 2)) tiedInputs) = .next t ∧
      t.block = .known { phase := .emit, cnt := (r.cnt + n) % 2 ^ s.cfg.params.cntW, dly := 0 } ∧
      t.handed = playback s.cfg r.cnt n ++ s.handed ∧ t.cfg = s.cfg := by
  induction n with
  | zero =>
    have start : r = { phase := .emit, cnt := (r.cnt + 0) % 2 ^ s.cfg.params.cntW, dly := 0 } := by
      rw [Nat.add_zero, Nat.mod_eq_of_lt width, ← phase, ← dly]
    rw [Nat.zero_mul, ← start]
    exact ⟨s, rfl, hs, rfl, rfl⟩
  | succ n ih =>
    obtain ⟨u, ran, hu, handed, cfg⟩ := ih
    have sample := runInputs_tied_sample hu rfl
    rw [cfg, countUp_mod, idx_of_counted rfl, handed] at sample
    rw [Nat.succ_mul, List.replicate_add, runInputs_append ran]
    exact sample

/-! ### The statements -/

/-- Settles O33: EMIT_DONE loads the delay, each edge of an unfinished delay counts its tick, and WAIT_DONE follows. -/
theorem delayCountsExactlyItsTicks : Obligations.DelayCountsExactlyItsTicks := by
  refine ⟨fun s r inp hs phase rst ack => ?entry, fun s r hs fits phase =>
    ⟨fun ins noReset unfinished => ?counts, fun inp rst finished => ?leaves, fun k enough => ?ticked, ?lasts⟩⟩
  case entry =>
    have ran := runInputs_cons_of_selectedWhen hs (i := .emitDone) ⟨rst, phase, ack⟩ []
    exact ⟨_, _, ran, rfl, rfl, rfl, delayTicks_lt s.cfg⟩
  case counts =>
    obtain ⟨t, ran, ht, -⟩ := runInputs_counts hs fits phase noReset unfinished
    exact ⟨t, ran, ht⟩
  case leaves => exact ⟨_, runInputs_cons_of_selectedWhen hs (i := .waitDone) ⟨rst, phase, finished⟩ [], rfl⟩
  case ticked =>
    obtain ⟨t, ran, ht, -⟩ := runInputs_tied_counts hs fits phase enough
    exact ⟨t, ran, ht⟩
  case lasts =>
    obtain ⟨t, ran, ht, -⟩ := runInputs_tied_wait hs fits phase
    exact ⟨t, ran, ht⟩

/-- Settles O35, by the induction of `runInputs_tied_samples` on the number of samples. -/
theorem tiedAnswersGiveTheFastestPacing : Obligations.TiedAnswersGiveTheFastestPacing := by
  intro s r n hs phase width dly
  obtain ⟨t, ran, ht, handed, -⟩ := runInputs_tied_samples hs phase width dly n
  exact ⟨t, ran, ht, handed⟩

/-- Settles O18: the condition of WAIT_DONE does not name the tick. -/
theorem waitDoneEntersEmit : Obligations.WaitDoneEntersEmit := by
  intro s r hs
  exact ⟨withRegs_known hs _, selected_iff hs .waitDone, observe_of_phase hs, waitDone_after_emitDone hs⟩

/-- Settles O19: a delay that fits its register and is not 0 counts down without a wrap, in one edge and in `k`. -/
theorem waitTickCountsOneTick : Obligations.WaitTickCountsOneTick := by
  intro s r hs fits
  refine ⟨fun unfinished => ?count, selected_iff hs .waitTick, fun phase => ⟨_, observe_of_phase hs phase, rfl, rfl⟩,
    fun unfinished => ?flag, fun phase ins noReset ticked enough => ?ticks⟩
  case count =>
    have executed : exec .waitTick s = .next _ := withRegs_known hs _
    rw [executed, countDown_of_ne_zero s.cfg unfinished fits]
    rfl
  case flag =>
    have last : r.dly - 1 = 0 ↔ r.dly = 1 := by omega
    exact decide_eq_decide.mpr last
  case ticks =>
    obtain ⟨t, ran, ht, -⟩ := runInputs_of_ticked hs fits phase noReset ticked enough
    exact ⟨t, ran, ht⟩

/-- Settles O20: every input without reset and tick selects WAIT_IDLE again; of the two transitions that leave WAIT,
WAIT_DONE needs a finished delay. -/
theorem waitIdleKeepsTheState : Obligations.WaitIdleKeepsTheState := by
  intro s r hs
  refine ⟨withRegs_known hs _, selected_iff hs .waitIdle, fun phase => ⟨_, observe_of_phase hs phase, rfl, rfl⟩,
    fun phase unfinished ins noReset noTick => ?hold, fun phase unfinished t r' h ht leaves => ?exits⟩
  case hold =>
    obtain ⟨t, ran, ht, handed, -⟩ := runInputs_of_hold hs .waitIdle rfl rfl ins fun inp mem =>
      ⟨noReset inp mem, phase, unfinished, noTick inp mem⟩
    exact ⟨t, ran, ht.trans hs.symm, handed⟩
  case exits =>
    have sel := selected_eq_decodeCV hs
    obtain ⟨reset, -⟩ | edge := phasesFollowTheGraph s t r r' _ hs sel h ht
    · exact sel.trans (congrArg some reset)
    · obtain ⟨waitDone, -⟩ : decodeCV (controlVector (nextInputs s) r) = .waitDone ∧ r'.phase = .emit := by
        simpa [phase, leaves] using edge
      obtain ⟨-, -, finished⟩ := (selected_iff hs .waitDone).mp (sel.trans (congrArg some waitDone))
      exact absurd finished unfinished

end Sys2Proof.Machine

/-! Simultaneous events (spec/60_exceptions.md): what decides an edge at which several inputs are high. -/
namespace Sys2Proof.Machine

open Sys2Proof

/-! ### The one answer an edge reads (60_exceptions.md R103) -/

/-- The answer an edge without reset reads in a phase (30_encoding.md R67). The illegal phase reads none of the three, so any
of them may stand there. -/
def answerRead : Phase → Inputs → Bool
  | .init => Inputs.dacInitAck
  | .emit => Inputs.dacAck
  | .wait | .illegal => Inputs.tick

theorem answerRead_mem (ph : Phase) : answerRead ph ∈ [Inputs.dacInitAck, Inputs.dacAck, Inputs.tick] := by
  cases ph <;> simp [answerRead]

/-- Without reset the selection takes nothing from the inputs but the answer of the phase. -/
theorem decodeCV_congr_answerRead {inp inp' : Inputs} {r : Regs} (rst : inp.rst = false) (rst' : inp'.rst = false)
    (same : answerRead r.phase inp = answerRead r.phase inp') :
    decodeCV (controlVector inp r) = decodeCV (controlVector inp' r) := by
  rw [decodeCV_controlVector, decodeCV_controlVector, rst, rst']
  cases phase : r.phase with
  | init =>
    have ack : inp.dacInitAck = inp'.dacInitAck := by rwa [phase] at same
    simp only [pick, ack]
  | emit =>
    have ack : inp.dacAck = inp'.dacAck := by rwa [phase] at same
    simp only [pick, ack]
  | wait =>
    have tick : inp.tick = inp'.tick := by rwa [phase] at same
    simp only [pick, tick]
  | illegal => rfl

/-! ### The statement -/

/-- Settles O26: reset is the first row of the map; without it the selection reads the answer of the phase alone, and the
condition of WAIT_DONE does not name the tick. -/
theorem simultaneousEventsHavePriorities : Obligations.SimultaneousEventsHavePriorities := by
  intro s r hs
  refine ⟨fun inp rst => ?reset, ⟨answerRead r.phase, answerRead_mem r.phase, fun inp inp' rst rst' same => ?oneAnswer⟩,
    fun inp rst phase finished => ?waitDone⟩
  case reset => exact runInputs_of_rst (List.cons_ne_nil inp []) (List.forall_mem_singleton.mpr rst)
  case oneAnswer => exact runInputs_congr_selected hs (decodeCV_congr_answerRead rst rst' same)
  case waitDone => exact ⟨_, runInputs_cons_of_selectedWhen hs (i := .waitDone) ⟨rst, phase, finished⟩ [], rfl⟩

end Sys2Proof.Machine

/-! Reset and hazards (spec/70_reset_and_hazards.md): when `dac_data` changes, where the block hangs, and the samples that it
hands over in an environment that answers. -/
namespace Sys2Proof.Machine

open Sys2Proof

/-! ### The three unanswered waits (70_reset_and_hazards.md R127) -/

/-- The waits of the block at an edge that does not answer them. -/
def Unanswered (r : Regs) (inp : Inputs) : Prop :=
  (r.phase = .init ∧ inp.dacInitAck = false) ∨ (r.phase = .emit ∧ inp.dacAck = false) ∨
    (r.phase = .wait ∧ r.dly ≠ 0 ∧ inp.tick = false)

/-- An unanswered edge takes one of the three holds. -/
theorem edge_of_unanswered {c : Config} {inp : Inputs} {r r' : Regs} {news : List Handshake} (h : Edge c inp r r' news)
    (rst : inp.rst = false) (unanswered : Unanswered r inp) : r' = r ∧ news = [] := by
  cases h with
  | reset set => simp [rst] at set
  | initHold | emitHold | waitIdle => exact ⟨rfl, rfl⟩
  | initDone _ phase ack | emitDone _ phase ack => simp [Unanswered, phase, ack] at unanswered
  | waitDone _ phase dly => simp [Unanswered, phase, dly] at unanswered
  | waitTick _ phase _ tick => simp [Unanswered, phase, tick] at unanswered
  | illegalPhase _ phase => simp [Unanswered, phase] at unanswered

/-- Any other edge of legal registers hands a sample over, enters EMIT from another phase, or counts a tick. -/
theorem edge_of_answered {c : Config} {inp : Inputs} {r r' : Regs} {news : List Handshake} (h : Edge c inp r r' news)
    (rst : inp.rst = false) (legal : LegalRegs c r) (width : InWidth c r) (answered : ¬ Unanswered r inp) :
    (r.phase = .emit ∧ r'.phase = .wait ∧ (wordsOf news).length = 1) ∨
    (r.phase ≠ .emit ∧ r'.phase = .emit ∧ wordsOf news = []) ∨
    (r.phase = .wait ∧ r'.phase = .wait ∧ r'.dly < r.dly ∧ wordsOf news = []) := by
  obtain ⟨-, dly_lt⟩ := width
  cases h with
  | reset set => simp [rst] at set
  | illegalPhase _ phase => exact absurd phase legal.notIllegal
  | initHold _ phase ack => exact absurd (.inl ⟨phase, ack⟩) answered
  | emitHold _ phase ack => exact absurd (.inr (.inl ⟨phase, ack⟩)) answered
  | waitIdle _ phase dly tick => exact absurd (.inr (.inr ⟨phase, dly, tick⟩)) answered
  | emitDone _ phase => exact .inl ⟨phase, rfl, rfl⟩
  | initDone _ phase | waitDone _ phase => exact .inr (.inl ⟨by simp [phase], rfl, rfl⟩)
  | waitTick _ phase dly =>
    have counted : countDown c r.dly < r.dly := by
      rw [countDown_of_ne_zero c dly dly_lt]
      exact Nat.sub_one_lt dly
    exact .inr (.inr ⟨phase, phase, counted, rfl⟩)

/-! ### A run in an environment that answers (70_reset_and_hazards.md R126) -/

theorem firstInputs_succ (σ : Nat → Inputs) (k : Nat) : firstInputs σ (k + 1) = firstInputs σ k ++ [σ k] := by
  simp [firstInputs, List.range_succ]

/-- After `k` edges of the launched run the block has these registers, which are legal, and has handed over `n` samples. -/
structure LegalAt (c : Config) (start : Regs) (σ : Nat → Inputs) (k : Nat) (r : Regs) (n : Nat) : Prop where
  ran : ∃ t, runInputs (launch c start []) (firstInputs σ k) = .next t ∧ t.cfg = c ∧ t.block = .known r ∧
    (wordsOf t.handed).length = n
  legal : LegalRegs c r
  width : InWidth c r

section
variable {c : Config} {start r : Regs} {σ : Nat → Inputs} {k n : Nat}

theorem legalAt_zero (legal : LegalRegs c start) (width : InWidth c start) : LegalAt c start σ 0 start 0 where
  ran := ⟨launch c start [], rfl, rfl, rfl, rfl⟩
  legal := legal
  width := width

theorem LegalAt.reachesAt (now : LegalAt c start σ k r n) : ReachesAt c start σ k r := by
  obtain ⟨t, ran, -, ht, -⟩ := now.ran
  exact ⟨t, ran, ht⟩

/-- The run goes on by one edge, which adds the samples it hands over. -/
theorem LegalAt.next (now : LegalAt c start σ k r n) :
    ∃ r' news, Edge c (σ k) r r' news ∧ LegalAt c start σ (k + 1) r' (n + (wordsOf news).length) := by
  obtain ⟨t, ran, rfl, ht, words⟩ := now.ran
  have taken := edge_nextRegs t.cfg (σ k) r
  refine ⟨_, _, taken, ⟨afterEdge t (σ k) r, ?ran, rfl, rfl, ?words⟩, edge_legalRegs taken now.width now.legal,
    edge_inWidth taken now.width⟩
  case ran =>
    rw [firstInputs_succ, runInputs_append ran, runInputs_known_cons ht]
    rfl
  case words => rw [afterEdge_handed, wordsOf_append, List.length_append, words, Nat.add_comm]

/-- The duty of the collaborator whose answer the block waits for, in any phase. -/
theorem EnvironmentAnswers.answers (env : EnvironmentAnswers c start σ) (reached : ReachesAt c start σ k r) :
    ∃ j, k ≤ j ∧ ¬ Unanswered r (σ j) := by
  cases phase : r.phase with
  | init =>
    obtain ⟨j, later, ack⟩ := env.initAnswered k r reached phase
    exact ⟨j, later, by simp [Unanswered, phase, ack]⟩
  | emit =>
    obtain ⟨j, later, ack⟩ := env.sampleAnswered k r reached phase
    exact ⟨j, later, by simp [Unanswered, phase, ack]⟩
  | wait =>
    by_cases dly : r.dly = 0
    · exact ⟨k, le_rfl, by simp [Unanswered, phase, dly]⟩
    · obtain ⟨j, later, tick⟩ := env.ticksArrive k r reached phase dly
      exact ⟨j, later, by simp [Unanswered, phase, tick]⟩
  | illegal => exact ⟨k, le_rfl, by simp [Unanswered, phase]⟩

/-- Until its first answer a wait holds the block, so the answer still meets the same registers. -/
theorem LegalAt.held_until_answered (now : LegalAt c start σ k r n) (env : EnvironmentAnswers c start σ) :
    ∃ i, LegalAt c start σ i r n ∧ ¬ Unanswered r (σ i) := by
  obtain ⟨j, later, answered⟩ := env.answers now.reachesAt
  obtain ⟨d, rfl⟩ := Nat.exists_eq_add_of_le later
  clear later
  induction d generalizing k with
  | zero => exact ⟨k, now, answered⟩
  | succ d ih =>
    by_cases unanswered : Unanswered r (σ k)
    · obtain ⟨r', news, taken, held⟩ := now.next
      obtain ⟨rfl, rfl⟩ := edge_of_unanswered taken (env.noReset k) unanswered
      exact ih held (by rwa [Nat.add_right_comm])
    · exact ⟨k, now, unanswered⟩

/-- How many answered edges the block is away from EMIT: one for each tick left, and one that enters it. -/
def edgesToEmit (r : Regs) : Nat := if r.phase = .emit then 0 else r.dly + 1

/-- One more sample comes: each answer hands it over or brings the block closer to EMIT. -/
theorem LegalAt.another_sample (now : LegalAt c start σ k r n) (env : EnvironmentAnswers c start σ) :
    ∃ k' r', LegalAt c start σ k' r' (n + 1) := by
  induction distance : edgesToEmit r using Nat.strong_induction_on generalizing k r with
  | _ m ih =>
    obtain ⟨i, held, answered⟩ := now.held_until_answered env
    obtain ⟨r', news, taken, next⟩ := held.next
    have goOn (closer : edgesToEmit r' < edgesToEmit r) (silent : wordsOf news = []) :
        ∃ k' r', LegalAt c start σ k' r' (n + 1) := by
      rw [silent] at next
      exact ih _ (distance ▸ closer) next rfl
    obtain ⟨-, -, one⟩ | ⟨outside, enters, silent⟩ | ⟨phase, stays, counted, silent⟩ :=
      edge_of_answered taken (env.noReset i) now.legal now.width answered
    · rw [one] at next
      exact ⟨i + 1, r', next⟩
    · exact goOn (by simp [edgesToEmit, outside, enters]) silent
    · exact goOn (by simpa [edgesToEmit, phase, stays] using counted) silent

/-- Any number of samples comes, one after the other. -/
theorem EnvironmentAnswers.samples (env : EnvironmentAnswers c start σ) (legal : LegalRegs c start)
    (width : InWidth c start) (n : Nat) : ∃ k r, LegalAt c start σ k r n := by
  induction n with
  | zero => exact ⟨0, start, legalAt_zero legal width⟩
  | succ n ih =>
    obtain ⟨k, r, now⟩ := ih
    exact now.another_sample env

end

/-! ### The statements -/

/-- Settles O28: `dac_data` is the word at the index of `CNT`, which the other transitions do not write. -/
theorem dataChangesOnlyAtThreeEdges : Obligations.DataChangesOnlyAtThreeEdges := by
  intro s t o o' ho h ho'
  obtain ⟨r, hs, rfl⟩ := observe_next ho
  have sel := selected_eq_decodeCV hs
  rw [step_of_selected hs sel] at h
  cases h
  cases ho'
  refine ⟨rfl, fun changes => ?_⟩
  by_contra other
  simp only [sel, Option.some_inj, not_or] at other
  obtain ⟨emitDone, reset, illegalPhase⟩ := other
  have cnt := execRegs_cnt s.cfg r (i := decodeCV (controlVector (nextInputs s) r)) (by simp [reset, emitDone, illegalPhase])
  have word := congrArg (romRead s.cfg) (idx_congr (congrArg (· % 32) cnt))
  exact changes word

/-- Settles O36: an unanswered edge keeps the registers, so a run of them does; any other edge makes progress. -/
theorem hangsAreExactlyTheUnansweredWaits : Obligations.HangsAreExactlyTheUnansweredWaits := by
  intro s r hs
  refine ⟨fun ins noReset waits => ?hangs, fun inp rst legal width init emit wait => ?progress⟩
  case hangs =>
    have unanswered : ∀ inp ∈ ins, inp.rst = false ∧ Unanswered r inp := by
      intro inp mem
      refine ⟨noReset inp mem, ?_⟩
      obtain ⟨phase, noAck⟩ | ⟨phase, noAck⟩ | ⟨phase, dly, noTick⟩ := waits
      · exact .inl ⟨phase, noAck inp mem⟩
      · exact .inr (.inl ⟨phase, noAck inp mem⟩)
      · exact .inr (.inr ⟨phase, dly, noTick inp mem⟩)
    have still : ∀ inp : Inputs, inp.rst = false ∧ Unanswered r inp →
        nextRegs s.cfg inp r = r ∧ newsOf s.cfg inp r = [] :=
      fun inp ⟨rst, wait⟩ => edge_of_unanswered (edge_nextRegs s.cfg inp r) rst wait
    obtain ⟨t, ran, ht, -⟩ := runInputs_stays _ hs still ins unanswered
    exact ⟨t, ran, ht⟩
  case progress =>
    have answered : ¬ Unanswered r inp := by
      rintro (⟨phase, noAck⟩ | ⟨phase, noAck⟩ | ⟨phase, dly, noTick⟩)
      · simp [init phase] at noAck
      · simp [emit phase] at noAck
      · simp [wait phase dly] at noTick
    refine ⟨_, _, runInputs_known_cons hs inp [], rfl, ?_⟩
    obtain ⟨phase, leaves, -⟩ | ⟨outside, enters, -⟩ | ⟨-, stays, counted, -⟩ :=
      edge_of_answered (edge_nextRegs s.cfg inp r) rst legal width answered
    · exact .inl (by simp [phase, leaves])
    · exact .inl (by simpa [enters] using outside.symm)
    · exact .inr ⟨stays, counted⟩

/-- Settles O37: each sample is followed by another, since every wait ends at its first answer. -/
theorem samplesAreHandedOverWithoutEnd : Obligations.SamplesAreHandedOverWithoutEnd := by
  intro c start σ legal width env n
  obtain ⟨k, r, now⟩ := env.samples legal width n
  obtain ⟨t, ran, -, -, words⟩ := now.ran
  exact ⟨k, t, ran, words.ge⟩

end Sys2Proof.Machine

/-! Table words (spec/30_encoding.md section 1): decoding gives back what was encoded, and a placed word is what the next
step runs. -/
namespace Sys2Proof.Machine

open Sys2Proof

/-! ### Words that decode (30_encoding.md R60, R69) -/

/-- The instruction that the low bits of a word name. -/
def lowBitsInstr (w : Nat) : Format → Instr
  | .cv7 => decodeCV (BitVec.ofNat 7 w)
  | .romAddr => .romrd (BitVec.ofNat 5 w)

/-- Exactly the words that fit their format decode, to the instruction of their bits. -/
theorem decodeWord_eq_ok_iff {f : Format} {w : Nat} {i : Instr} :
    decodeWord f w = .ok i ↔ f.fits w = true ∧ lowBitsInstr w f = i := by
  cases f with
  | cv7 | romAddr => cases fits : Format.fits _ w <;> simp [decodeWord, lowBitsInstr, fits]

theorem decodeWord_cv7 (cv : ControlVector) : decodeWord .cv7 cv.toNat = .ok (decodeCV cv) :=
  decodeWord_eq_ok_iff.mpr ⟨decide_eq_true cv.isLt, by simp [lowBitsInstr]⟩

theorem decodeWord_of_decodeTableWord {nbits w : Nat} {f : Format} {i : Instr} (format : formatOfBits nbits = some f)
    (h : decodeTableWord nbits w = some i) : decodeWord f w = .ok i := by
  simp only [decodeTableWord, format] at h
  cases decoded : decodeWord f w with
  | ok j => simpa [decoded, Except.toOption] using h
  | error e => simp [decoded, Except.toOption] at h

/-! ### The encoder's words (30_encoding.md R65) -/

/-- The word of a transition is the `match` value of its row, which that row itself meets. -/
theorem transitionMap_encode : ∀ row ∈ transitionMap,
    row.instr.format = .cv7 ∧ encode row.instr = row.hit.toNat ∧ row.hit &&& row.mask = row.hit := by
  decide

theorem exists_row_of_ne_romrd {i : Instr} (h : ∀ a, i ≠ .romrd a) : ∃ row ∈ transitionMap, row.instr = i := by
  rw [← List.mem_map]
  cases i with
  | romrd a => exact absurd rfl (h a)
  | reset | initHold | initDone | emitHold | emitDone | waitDone | waitTick | waitIdle | illegalPhase => decide

theorem decodeWord_encode (i : Instr) : decodeWord i.format (encode i) = .ok i := by
  by_cases address : ∃ a, i = .romrd a
  · obtain ⟨a, rfl⟩ := address
    exact decodeWord_romAddr a
  · obtain ⟨row, mem, rfl⟩ := exists_row_of_ne_romrd (not_exists.mp address)
    obtain ⟨format, word, meets⟩ := transitionMap_encode row mem
    rw [format, word, decodeWord_cv7, decodeCV_of_row row.hit row.mask mem meets]

/-! ### A placed control vector (30_encoding.md R61) -/

@[simp] theorem placeCV_cfg (s : State) (cv : ControlVector) : (placeCV s cv).cfg = s.cfg := rfl
@[simp] theorem placeCV_handed (s : State) (cv : ControlVector) : (placeCV s cv).handed = s.handed := rfl
@[simp] theorem nextInputs_placeCV (s : State) (cv : ControlVector) : nextInputs (placeCV s cv) = inputsOfCV cv := rfl

theorem phaseBits_phaseOfBits (b : BitVec 2) : phaseBits (phaseOfBits b) = b := by
  revert b; decide

/-- A control vector is its fields: the four inputs, `PHASE` and `DLY_Z`. -/
theorem controlVector_ext {v w : ControlVector} (rst : v.getLsbD 6 = w.getLsbD 6)
    (phase : v.extractLsb' 4 2 = w.extractLsb' 4 2) (initAck : v.getLsbD 3 = w.getLsbD 3)
    (ack : v.getLsbD 2 = w.getLsbD 2) (tick : v.getLsbD 1 = w.getLsbD 1) (dlyZ : v.getLsbD 0 = w.getLsbD 0) : v = w := by
  have phaseLow : v.getLsbD 4 = w.getLsbD 4 := by simpa using congrArg (·.getLsbD 0) phase
  have phaseHigh : v.getLsbD 5 = w.getLsbD 5 := by simpa using congrArg (·.getLsbD 1) phase
  apply BitVec.eq_of_getLsbD_eq
  intro k hk
  interval_cases k <;> assumption

/-- The inputs and registers that carry a control vector's bits sample to it, whatever `CNT` and the old delay are. -/
theorem controlVector_inputsOfCV (cv : ControlVector) (cnt dly : Nat) :
    controlVector (inputsOfCV cv) ⟨phaseOfBits (cv.extractLsb' 4 2), cnt, delayWithZ (cv.getLsbD 0) dly⟩ = cv := by
  obtain ⟨rst, phase, initAck, ack, tick, zero, -⟩ := controlVectorBitsComeFromTheirSources (inputsOfCV cv)
    ⟨phaseOfBits (cv.extractLsb' 4 2), cnt, delayWithZ (cv.getLsbD 0) dly⟩
  have phase := phase.trans (phaseBits_phaseOfBits _)
  have zero := zero.trans (dlyZ_delayWithZ (cv.getLsbD 0) dly (phaseOfBits (cv.extractLsb' 4 2)) cnt)
  exact controlVector_ext rst phase initAck ack tick zero

/-- A placed control vector selects its transition, on a block before its first reset too. -/
theorem selected_placeCV (s : State) (cv : ControlVector) : selected (placeCV s cv) = some (decodeCV cv) := by
  rw [selected_eq_decodeCV rfl, nextInputs_placeCV, controlVector_inputsOfCV]

/-! ### A placed ROM address (20_memory.md R43) -/

/-- With every input low, an edge outside the illegal phase keeps `CNT`. -/
theorem nextRegs_quiet_cnt (c : Config) {r : Regs} (legal : r.phase ≠ .illegal) :
    (nextRegs c quietInputs r).cnt = r.cnt := by
  obtain ⟨regs, -⟩ := edge_eq_selected (edge_nextRegs c quietInputs r)
  rw [regs, decodeCV_controlVector]
  cases phase : r.phase with
  | init | emit => rfl
  | wait => cases dlyZ : r.dly == 0 <;> rfl
  | illegal => exact absurd phase legal

@[simp] theorem placeAddress_cfg (s : State) (a : Addr) : (placeAddress s a).cfg = s.cfg := rfl
@[simp] theorem nextInputs_placeAddress (s : State) (a : Addr) : nextInputs (placeAddress s a) = quietInputs := rfl

/-- A count whose low five bits are replaced by an address reads back as that address. -/
theorem ofNat5_replace_low (n : Nat) (a : Addr) : BitVec.ofNat 5 (n / 32 * 32 + a.toNat) = a := by
  have low : (n / 32 * 32 + a.toNat) % 32 = a.toNat % 32 := by omega
  rw [ofNat5_congr low, BitVec.ofNat_toNat, BitVec.setWidth_eq]

/-- Placing an address leaves registers outside the illegal phase, with the address as their index. -/
theorem placeAddress_block (s : State) (a : Addr) :
    ∃ r, (placeAddress s a).block = .known r ∧ r.phase ≠ .illegal ∧ idx r = a := by
  refine ⟨_, rfl, ?legal, ofNat5_replace_low _ a⟩
  case legal =>
    split
    · nofun
    · assumption

/-- The step after placing an address keeps the index, so its ROM read is at the address. -/
theorem step_placeAddress (s : State) (a : Addr) :
    ∃ t r, step (placeAddress s a) = .next t ∧ t.block = .known r ∧ idx r = a ∧ t.dacData = some (romRead s.cfg a) := by
  obtain ⟨r, placed, legal, rfl⟩ := placeAddress_block s a
  have stepped := step_known placed
  have index : idx (nextRegs s.cfg quietInputs r) = idx r := idx_congr (by rw [nextRegs_quiet_cnt s.cfg legal])
  exact ⟨_, _, stepped, rfl, index, by simp [index]⟩

/-! ### The statements -/

/-- Settles O3: a transition's word meets its own row of the map, an address is its own word, and only words that fit
decode. -/
theorem decodingAnEncodedInstructionGivesItBack : Obligations.DecodingAnEncodedInstructionGivesItBack := by
  intro i _
  obtain ⟨fits, -⟩ := decodeWord_eq_ok_iff.mp (decodeWord_encode i)
  exact ⟨fits, decodeWord_encode i⟩

/-- Settles O23: the placed inputs and registers sample to the control vector; the quiet inputs keep the placed address until
the ROM read of the step. -/
theorem placedWordIsRun : Obligations.PlacedWordIsRun := by
  refine fun s w => ⟨fun i h => ?cv, fun a h => ?address⟩
  case cv =>
    obtain ⟨-, rfl⟩ := decodeWord_eq_ok_iff.mp (decodeWord_of_decodeTableWord (f := .cv7) rfl h)
    exact ⟨selected_placeCV s _, placeCV_cfg s _, placeCV_handed s _⟩
  case address =>
    obtain ⟨-, romrd⟩ := decodeWord_eq_ok_iff.mp (decodeWord_of_decodeTableWord (f := .romAddr) rfl h)
    cases romrd
    exact step_placeAddress s _

end Sys2Proof.Machine
